-- ==== Sys2Proof/Word.lean ====
section
/-! DEFINITION. The one datum of the block: a signed 64-bit cell (00_scope.md R8, 20_memory.md R36). -/

namespace Sys2Proof

/-- `CELL`: one memory word, one queue value, and the type of `ip` and `rb` (00_scope.md R8; the width of the
two registers is the spec's decision D1). Its numeric value is the signed one, `toInt`. -/
abbrev Cell := BitVec 64

/-- The cell whose signed value is `v`, for `v` in `Int64`. -/
abbrev Cell.ofInt (v : Int) : Cell := BitVec.ofInt 64 v

end Sys2Proof
end

