-- ==== Sys2Proof/Config.lean ====
section
/-! DEFINITION. What the spec leaves to the implementation (00_scope.md R8): the overflow mode. -/

namespace Sys2Proof

/-- What a sum or product outside `Int64` does (00_scope.md R8, R11; decision D8). -/
inductive OverflowMode where
  /-- raise `ArithmeticOverflow` -/
  | fault
  /-- wrap modulo 2^64 -/
  | wrap
  deriving DecidableEq, Repr, Inhabited

/-- `OVERFLOW_MODE`, which the spec leaves OPEN: one of the two modes, the same for the whole life of the block.
It has no body, so a theorem about the machine holds under both (DESIGN CHOICE, safe; log entry 1). -/
opaque Config.overflowMode : OverflowMode

end Sys2Proof
end

