-- ==== Sys2Proof/Syntax.lean ====
section
/-! DEFINITION. Addressing modes, opcodes and instructions (30_encoding.md R48, R53, R55, R64). -/

namespace Sys2Proof

/-- The three addressing modes (30_encoding.md R53). -/
inductive Mode where
  /-- the parameter cell holds the address -/
  | position
  /-- the parameter cell holds the value (reads only) -/
  | immediate
  /-- the parameter cell plus the relative base is the address -/
  | relative
  deriving DecidableEq, Repr

/-- The ten operation codes (30_encoding.md R64). -/
inductive Opcode where
  | add | mul | inp | out | jt | jf | lt | eq | arb | halt
  deriving DecidableEq, Repr

/-- A decoded instruction: an opcode and the modes of parameters 1, 2 and 3. Decode extracts all three modes
from every word, those of parameters the opcode lacks included (R52), so every constructor carries them; the
parameter cells stay in memory (R63). -/
inductive Instr where
  /-- ADD (R88) -/
  | add (m1 m2 m3 : Mode)
  /-- MUL (R89) -/
  | mul (m1 m2 m3 : Mode)
  /-- IN (R91) -/
  | inp (m1 m2 m3 : Mode)
  /-- OUT (R92) -/
  | out (m1 m2 m3 : Mode)
  /-- JT (R93) -/
  | jt (m1 m2 m3 : Mode)
  /-- JF (R94) -/
  | jf (m1 m2 m3 : Mode)
  /-- LT (R96) -/
  | lt (m1 m2 m3 : Mode)
  /-- EQ (R97) -/
  | eq (m1 m2 m3 : Mode)
  /-- ARB (R98) -/
  | arb (m1 m2 m3 : Mode)
  /-- HALT (R99) -/
  | halt (m1 m2 m3 : Mode)
  deriving DecidableEq, Repr

end Sys2Proof
end

