-- ==== Sys2Proof/WellFormed.lean ====
section
/-! DEFINITION. Which instructions a word can decode to: no write target in immediate mode (30_encoding.md R56, R65). -/

namespace Sys2Proof

/-- A mode that may name a write target: position or relative, never immediate (30_encoding.md R56). -/
def Mode.namesTarget : Mode → Bool
  | .position => true
  | .immediate => false
  | .relative => true

/-- The legality check on an instruction's W parameter (30_encoding.md R55, R56). Instructions without a W
parameter are always well formed. -/
def Instr.wellFormed : Instr → Bool
  | .add _ _ m3 => m3.namesTarget
  | .mul _ _ m3 => m3.namesTarget
  | .inp m1 _ _ => m1.namesTarget
  | .out _ _ _ => true
  | .jt _ _ _ => true
  | .jf _ _ _ => true
  | .lt _ _ m3 => m3.namesTarget
  | .eq _ _ m3 => m3.namesTarget
  | .arb _ _ _ => true
  | .halt _ _ _ => true

end Sys2Proof
end

