-- ==== Sys2Proof/Decode.lean ====
section
/-! DEFINITION. The decoder of one instruction word, total and refusing by name, and the encoder
(30_encoding.md R48 to R67, 40_controller.md R79). The layout is decimal, not binary. -/

namespace Sys2Proof

/-- `digit_k(w)`, the decimal digit at position `k` (00_scope.md R10). -/
def decimalDigit (k w : Nat) : Nat := w / 10 ^ k % 10

/-- The opcode field `op = tmod(w, 100)`, the truncated remainder (R51; decision D3 for negative words). -/
def opcodeField (w : Cell) : Int := w.toInt.tmod 100

/-- The mode field of parameter `k`: digit 2, digit 3, and for `k = 3` every digit from position 4 up
(R50, R52; decision D4). -/
def modeField (k : Nat) (w : Cell) : Nat :=
  match k with
  | 1 => decimalDigit 2 w.toInt.toNat
  | 2 => decimalDigit 3 w.toInt.toNat
  | _ => w.toInt.toNat / 10000

/-- The number of each opcode (R64). -/
def Opcode.number : Opcode → Int
  | .add => 1
  | .mul => 2
  | .inp => 3
  | .out => 4
  | .jt => 5
  | .jf => 6
  | .lt => 7
  | .eq => 8
  | .arb => 9
  | .halt => 99

/-- The known opcodes are exactly {1, ..., 9, 99} (R64). -/
def Opcode.ofNumber (n : Int) : Option Opcode :=
  if n = 1 then some .add
  else if n = 2 then some .mul
  else if n = 3 then some .inp
  else if n = 4 then some .out
  else if n = 5 then some .jt
  else if n = 6 then some .jf
  else if n = 7 then some .lt
  else if n = 8 then some .eq
  else if n = 9 then some .arb
  else if n = 99 then some .halt
  else none

/-- The width in cells: parameter count plus one, set by the opcode alone (R55, R67). -/
def Opcode.width : Opcode → Nat
  | .add => 4
  | .mul => 4
  | .inp => 2
  | .out => 2
  | .jt => 3
  | .jf => 3
  | .lt => 4
  | .eq => 4
  | .arb => 2
  | .halt => 1

/-- The index of the W parameter, for the opcodes that have one (R55). -/
def Opcode.targetIndex : Opcode → Option Nat
  | .add => some 3
  | .mul => some 3
  | .inp => some 1
  | .out => none
  | .jt => none
  | .jf => none
  | .lt => some 3
  | .eq => some 3
  | .arb => none
  | .halt => none

/-- The number of leading R parameters, which are read as operands (R55). -/
def Opcode.readCount : Opcode → Nat
  | .add => 2
  | .mul => 2
  | .inp => 0
  | .out => 1
  | .jt => 2
  | .jf => 2
  | .lt => 2
  | .eq => 2
  | .arb => 1
  | .halt => 0

/-- The digit of each mode: 0 Position, 1 Immediate, 2 Relative (R53; decision D2). -/
def Mode.digit : Mode → Nat
  | .position => 0
  | .immediate => 1
  | .relative => 2

/-- The mode of a mode-field value; any value but 0, 1 and 2 has none (R53, R54). -/
def Mode.ofField (d : Nat) : Option Mode :=
  match d with
  | 0 => some .position
  | 1 => some .immediate
  | 2 => some .relative
  | _ => none

/-- The opcode of an instruction. -/
def Instr.opcode : Instr → Opcode
  | .add _ _ _ => .add
  | .mul _ _ _ => .mul
  | .inp _ _ _ => .inp
  | .out _ _ _ => .out
  | .jt _ _ _ => .jt
  | .jf _ _ _ => .jf
  | .lt _ _ _ => .lt
  | .eq _ _ _ => .eq
  | .arb _ _ _ => .arb
  | .halt _ _ _ => .halt

/-- The three addressing modes of an instruction. -/
def Instr.modes : Instr → Mode × Mode × Mode
  | .add m1 m2 m3 => (m1, m2, m3)
  | .mul m1 m2 m3 => (m1, m2, m3)
  | .inp m1 m2 m3 => (m1, m2, m3)
  | .out m1 m2 m3 => (m1, m2, m3)
  | .jt m1 m2 m3 => (m1, m2, m3)
  | .jf m1 m2 m3 => (m1, m2, m3)
  | .lt m1 m2 m3 => (m1, m2, m3)
  | .eq m1 m2 m3 => (m1, m2, m3)
  | .arb m1 m2 m3 => (m1, m2, m3)
  | .halt m1 m2 m3 => (m1, m2, m3)

/-- The instruction of an opcode and three modes. -/
def Instr.ofParts : Opcode → Mode → Mode → Mode → Instr
  | .add, m1, m2, m3 => .add m1 m2 m3
  | .mul, m1, m2, m3 => .mul m1 m2 m3
  | .inp, m1, m2, m3 => .inp m1 m2 m3
  | .out, m1, m2, m3 => .out m1 m2 m3
  | .jt, m1, m2, m3 => .jt m1 m2 m3
  | .jf, m1, m2, m3 => .jf m1 m2 m3
  | .lt, m1, m2, m3 => .lt m1 m2 m3
  | .eq, m1, m2, m3 => .eq m1 m2 m3
  | .arb, m1, m2, m3 => .arb m1 m2 m3
  | .halt, m1, m2, m3 => .halt m1 m2 m3

/-- Why a word is no instruction (R65). The step adds the instruction pointer (40_controller.md R79). -/
inductive DecodeError where
  /-- `tmod(w, 100)` is no known opcode -/
  | unknownOpcode (opcode : Int)
  /-- the mode field of parameter `index` is not 0, 1 or 2, or it is 1 and the parameter is a write target -/
  | invalidParameterMode (index mode : Nat)
  deriving DecidableEq, Repr

/-- The mode of parameter `k`, or the refusal of its field (R54). -/
def decodeMode (k : Nat) (w : Cell) : Except DecodeError Mode :=
  match Mode.ofField (modeField k w) with
  | some m => .ok m
  | none => .error (.invalidParameterMode k (modeField k w))

/-- The index of the W parameter if its mode is immediate (R56). -/
def immediateTarget (op : Opcode) (m1 m2 m3 : Mode) : Option Nat :=
  match op.targetIndex with
  | some 1 => if m1 = .immediate then some 1 else none
  | some 2 => if m2 = .immediate then some 2 else none
  | some 3 => if m3 = .immediate then some 3 else none
  | _ => none

/-- Decode one instruction word (40_controller.md R79): the opcode, then the three modes in order, then the
legality of the write target. Total on every cell. -/
def decode (w : Cell) : Except DecodeError Instr :=
  match Opcode.ofNumber (opcodeField w) with
  | none => .error (.unknownOpcode (opcodeField w))
  | some op =>
    (decodeMode 1 w).bind fun m1 =>
    (decodeMode 2 w).bind fun m2 =>
    (decodeMode 3 w).bind fun m3 =>
    match immediateTarget op m1 m2 m3 with
    | some k => .error (.invalidParameterMode k 1)
    | none => .ok (Instr.ofParts op m1 m2 m3)

/-- The word made of an opcode and three mode digits, `op + 100*m1 + 1000*m2 + 10000*m3` (R50). -/
def wordOf (op : Opcode) (m1 m2 m3 : Mode) : Int :=
  op.number + 100 * m1.digit + 1000 * m2.digit + 10000 * m3.digit

/-- The instruction word of an instruction (R50, R68). -/
def encode (i : Instr) : Cell :=
  Cell.ofInt (wordOf i.opcode i.modes.1 i.modes.2.1 i.modes.2.2)

/-- Cell `k` of an instruction whose bits are `w`, cells being 64 bits and the first the lowest; the bits of `w`
from `nbits` up are 0. -/
def tableCell (nbits w k : Nat) : Cell := BitVec.ofNat 64 (w % 2 ^ nbits / 2 ^ (64 * k))

/-- What the decoder reads from an instruction whose bits are `w`. The decoder reads one cell, the first. -/
def decodeTableWord (nbits w : Nat) : Option Instr :=
  match decode (tableCell nbits w 0) with
  | .ok i => some i
  | .error _ => none

end Sys2Proof
end

