-- ==== Sys2Proof/Machine/State.lean ====
section
/-! DEFINITION. The state of one instance of the block (10_state.md R17), its errors (60_exceptions.md R104), the
reasons a step can stop, and the state after reset (70_reset_and_hazards.md R120). -/

namespace Sys2Proof.Machine

/-- The memory: (address, cell) pairs. The unit is the 64-bit cell, since no byte of a cell is visible (R36).
Canonical form: addresses strictly rising, every address below 2^63, no listed cell 0 (`Memory.wf`). -/
abbrev Memory := List (Nat × Cell)

/-- The controller status (10_state.md R26). -/
inductive Status where
  /-- constructed, never stepped -/
  | initial
  /-- after any step that is neither a halt nor a starvation -/
  | running
  /-- IN found the input queue empty -/
  | waitingForInput
  /-- HALT was executed -/
  | terminated
  deriving DecidableEq, Repr

/-- The errors a step raises (60_exceptions.md R104). `ip` is the instruction pointer when the failing step began. -/
inductive VmError where
  /-- decode: `tmod(w, 100)` is no known opcode (R105) -/
  | unknownOpcode (ip : Cell) (opcode : Int)
  /-- decode: an invalid mode field, or an immediate write target (R106) -/
  | invalidParameterMode (ip : Cell) (index mode : Nat)
  /-- a fetch or a parameter resolved to a negative address (R107) -/
  | illegalMemoryAccess (ip address : Cell)
  /-- a checked sum or product left `Int64` under `OVERFLOW_MODE = Fault` (R108) -/
  | arithmeticOverflow (ip : Cell)
  deriving DecidableEq, Repr

/-- The whole state of one instance; "no other state is architectural" (10_state.md R17). -/
structure State where
  /-- the cells of memory (R32) -/
  mem : Memory
  /-- the instruction pointer (R20) -/
  ip : Cell
  /-- the relative base (R23) -/
  rb : Cell
  /-- the input queue, head first (R25) -/
  inQ : List Cell
  /-- the output queue, head first (R25) -/
  outQ : List Cell
  /-- the controller status (R26) -/
  status : Status
  /-- the fault mark: the error a step raised, if any (R28) -/
  fault : Option VmError
  deriving DecidableEq, Repr

/-- No step stops the machine without a state. Every error of the spec has an entry the spec describes (R101): the
error is recorded in the fault mark of a NEXT state. So there is no reason here, and nobody raises one. Safe
(log entry 3). -/
inductive Fault where
  deriving DecidableEq, Repr

/-- Why a step has no meaning. -/
inductive Refusal where
  /-- An instruction that has no meaning yet; raised by an arm of `exec` only. Safe. -/
  | notModelled (mnemonic : String)
  /-- The instance carries the fault mark `e`: "refused: the step has no meaning" (10_state.md R27, 60_exceptions.md
  R103). Raised by `step` only, before any instruction is fetched. Safe (log entry 4). -/
  | faultMarkSet (e : VmError)
  deriving DecidableEq, Repr

/-- The machine right after reset: `new` of the empty program (70_reset_and_hazards.md R120). -/
def State.reset : State where
  mem := []
  ip := 0
  rb := 0
  inQ := []
  outQ := []
  status := .initial
  fault := none

end Sys2Proof.Machine
end

