-- ==== Sys2Proof/Machine/Ops.lean ====
section
/-! DEFINITION. The named operations of the machine: checked arithmetic, memory, raising an error, completing an
instruction, fetch and decode (00_scope.md R11 to R15, 20_memory.md, 40_controller.md R78 to R81, 60_exceptions.md R101). -/

namespace Sys2Proof.Machine

/-! ## Checked arithmetic -/

/-- `v` is in `Int64`, the set [-2^63, 2^63-1] (00_scope.md R9). -/
def inInt64 (v : Int) : Bool :=
  decide (-9223372036854775808 ≤ v) && decide (v ≤ 9223372036854775807)

/-- `wrap64(v)`: the one cell congruent to `v` modulo 2^64 (00_scope.md R12). -/
def wrap64 (v : Int) : Cell := BitVec.ofInt 64 v

/-- The cell of an exact result: itself when it is in `Int64`, else what the overflow mode says (00_scope.md R11). -/
def narrow (ov : OverflowMode) (ip : Cell) (exact : Int) : Except VmError Cell :=
  if inInt64 exact then .ok (Cell.ofInt exact)
  else
    match ov with
    | .fault => .error (.arithmeticOverflow ip)
    | .wrap => .ok (wrap64 exact)

/-- `add64(a, b)` (R11); `ip` is the one an overflow reports. -/
def add64 (ov : OverflowMode) (ip a b : Cell) : Except VmError Cell := narrow ov ip (a.toInt + b.toInt)

/-- `mul64(a, b)` (R11). -/
def mul64 (ov : OverflowMode) (ip a b : Cell) : Except VmError Cell := narrow ov ip (a.toInt * b.toInt)

/-! ## Memory -/

/-- What an address nothing has been loaded or written to reads as (20_memory.md R33). -/
def untouched : Cell := 0

/-- `MemRead`: the listed cell, else the untouched value (R33). -/
def Memory.read : Memory → Nat → Cell
  | [], _ => untouched
  | (b, w) :: rest, a => if a = b then w else Memory.read rest a

/-- Put a pair in its place by address, replacing the one that is there. -/
def Memory.put : Memory → Nat → Cell → Memory
  | [], a, v => [(a, v)]
  | (b, w) :: rest, a, v =>
    if a < b then (a, v) :: (b, w) :: rest
    else if a = b then (a, v) :: rest
    else (b, w) :: Memory.put rest a v

/-- `MemWrite` (R34). Writing the untouched value delists the address, so equal memories are equal lists. -/
def Memory.write (m : Memory) (a : Nat) (v : Cell) : Memory :=
  if v = untouched then m.filter (fun c => c.1 ≠ a) else Memory.put m a v

/-- The canonical form of a memory: addresses strictly rising, all in [0, 2^63-1], no untouched value listed. -/
abbrev Memory.wf (m : Memory) : Prop :=
  m.Pairwise (fun c d => c.1 < d.1) ∧ ∀ c ∈ m, c.1 < 2 ^ 63 ∧ c.2 ≠ untouched

/-- Copy a program's cells in from address `a` on (70_reset_and_hazards.md R120), as far as the address space goes. -/
def Memory.load : Memory → Nat → List Cell → Memory
  | m, _, [] => m
  | m, a, v :: rest => if a < 2 ^ 63 then Memory.load (m.write a v) (a + 1) rest else m

/-- The cell at a non-negative address. -/
def State.read (s : State) (a : Cell) : Cell := s.mem.read a.toNat

/-- Store a cell at a non-negative address; nothing else changes. -/
def State.write (s : State) (a v : Cell) : State := { s with mem := s.mem.write a.toNat v }

/-! ## Errors -/

/-- The instruction pointer an error reports (60_exceptions.md R104). -/
def VmError.ip : VmError → Cell
  | .unknownOpcode ip _ => ip
  | .invalidParameterMode ip _ _ => ip
  | .illegalMemoryAccess ip _ => ip
  | .arithmeticOverflow ip => ip

/-- The numeric code of an error kind (R104; decision D20). -/
def VmError.code : VmError → Nat
  | .unknownOpcode _ _ => 1
  | .invalidParameterMode _ _ _ => 2
  | .illegalMemoryAccess _ _ => 3
  | .arithmeticOverflow _ => 4

/-! ## How an instruction ends -/

/-- Error entry (60_exceptions.md R101): the fault mark is set, every other component keeps its value. The error the
host is returned is the mark. There is no handler, and no return from an error (R103): nothing clears the mark. -/
def raise (e : VmError) (s : State) : Host.Outcome State Fault Refusal := .next { s with fault := some e }

/-- One line of an instruction that can raise: go on with its value, or raise its error (00_scope.md R14). -/
def orRaise {α : Type} (s : State) (r : Except VmError α)
    (go : α → Host.Outcome State Fault Refusal) : Host.Outcome State Fault Refusal :=
  match r with
  | .ok v => go v
  | .error e => raise e s

/-- `ip <- nip; return Running`, with the status recorded (40_controller.md R80, R81). -/
def State.retire (s : State) (nip : Cell) : State := { s with ip := nip, status := .running }

/-- Append to the output queue's tail (10_state.md R25). -/
def State.pushOutput (s : State) (v : Cell) : State := { s with outQ := s.outQ ++ [v] }

/-- `add64(ip, width)`, the next instruction pointer of an instruction that does not jump (10_state.md R21). -/
def advance (ov : OverflowMode) (s : State) (width : Nat) : Except VmError Cell :=
  add64 ov s.ip s.ip (BitVec.ofNat 64 width)

/-! ## Construction -/

/-- `new(program)` (70_reset_and_hazards.md R120): the program at address 0, every other component at reset. -/
def State.new (program : List Cell) : State := { State.reset with mem := Memory.load [] 0 program }

/-! ## Fetch and decode -/

/-- Fetch the instruction word (40_controller.md R78). -/
def fetch (s : State) : Except VmError Cell :=
  if s.ip.toInt < 0 then .error (.illegalMemoryAccess s.ip s.ip) else .ok (s.read s.ip)

/-- The error a refused word raises, with the instruction pointer it was fetched at (40_controller.md R79). -/
def decodeFault (ip : Cell) : DecodeError → VmError
  | .unknownOpcode op => .unknownOpcode ip op
  | .invalidParameterMode k m => .invalidParameterMode ip k m

/-- Fetch and decode the instruction at `ip` (40_controller.md R78, R79). -/
def fetchDecode (s : State) : Except VmError Instr :=
  (fetch s).bind fun w =>
  match decode w with
  | .ok i => .ok i
  | .error e => .error (decodeFault s.ip e)

/-- Store the four cells of a table word from address `a` on, as far as the address space goes. -/
def Memory.placeTableWord (m : Memory) (a nbits w : Nat) : Memory :=
  Memory.load m a [tableCell nbits w 0, tableCell nbits w 1, tableCell nbits w 2, tableCell nbits w 3]

/-- A state that will fetch: a negative `ip` becomes 0, a Terminated status becomes Running, and the fault mark is
cleared. A state that already fetches is unchanged (log entry 6). -/
def State.fetchReady (s : State) : State :=
  { s with
    ip := if s.ip.toInt < 0 then 0 else s.ip
    status := if s.status = .terminated then .running else s.status
    fault := none }

end Sys2Proof.Machine
end

