-- ==== Sys2Proof/Machine/Operands.lean ====
section
/-! DEFINITION. Operand resolution: effective addresses, operand values and write targets (30_encoding.md R56 to R63). -/

namespace Sys2Proof.Machine

/-- A negative address is an error that reports it (R57, 60_exceptions.md R107). -/
def checkAddress (ip a : Cell) : Except VmError Cell :=
  if a.toInt < 0 then .error (.illegalMemoryAccess ip a) else .ok a

/-- The address of parameter `k`'s own cell, `add64(ip, k)` (R57). It can be negative only after a wrap. -/
def parameterCell (ov : OverflowMode) (s : State) (k : Nat) : Except VmError Cell :=
  (add64 ov s.ip s.ip (BitVec.ofNat 64 k)).bind fun p => checkAddress s.ip p

/-- `EA(k)`, the effective address of parameter `k` under mode `m` (R57 to R60). -/
def effectiveAddress (ov : OverflowMode) (s : State) (k : Nat) (m : Mode) : Except VmError Cell :=
  (parameterCell ov s k).bind fun p =>
  match m with
  | .position => checkAddress s.ip (s.read p)
  | .immediate => .ok p
  | .relative => (add64 ov s.ip (s.read p) s.rb).bind fun a => checkAddress s.ip a

/-- `Operand(k)`, the value read through parameter `k` (R62). -/
def operand (ov : OverflowMode) (s : State) (k : Nat) (m : Mode) : Except VmError Cell :=
  (effectiveAddress ov s k m).bind fun a => .ok (s.read a)

/-- The legality of a write target's mode, checked before any operand is resolved (R56). The decoder has refused an
immediate target already; this is the same check for `exec` on any instruction (log entry 7). -/
def legalTarget (ip : Cell) (k : Nat) (m : Mode) : Except VmError Unit :=
  match m with
  | .immediate => .error (.invalidParameterMode ip k 1)
  | .position => .ok ()
  | .relative => .ok ()

/-- `WA(k)`, the address a W parameter names: `EA(k)` under a mode that is not immediate (R61). -/
def writeTarget (ov : OverflowMode) (s : State) (k : Nat) (m : Mode) : Except VmError Cell :=
  effectiveAddress ov s k m

/-- The instructions of the shape R R W (ADD, MUL, LT, EQ): both operands, the target, the next `ip`, the result, and
then the one write (40_controller.md R80). `result` may raise. -/
def threeOperand (ov : OverflowMode) (result : Cell → Cell → Except VmError Cell) (m1 m2 m3 : Mode) (s : State) :
    Host.Outcome State Fault Refusal :=
  orRaise s (legalTarget s.ip 3 m3) fun _ =>
  orRaise s (operand ov s 1 m1) fun a =>
  orRaise s (operand ov s 2 m2) fun b =>
  orRaise s (writeTarget ov s 3 m3) fun d =>
  orRaise s (advance ov s 4) fun nip =>
  orRaise s (result a b) fun v =>
  .next ((s.write d v).retire nip)

/-- The conditional jumps (JT, JF): condition and target are both read, whichever way the jump goes, and only the way
not taken advances (43_jumps.md R93, R94). -/
def jumpWhen (ov : OverflowMode) (taken : Cell → Bool) (m1 m2 : Mode) (s : State) :
    Host.Outcome State Fault Refusal :=
  orRaise s (operand ov s 1 m1) fun c =>
  orRaise s (operand ov s 2 m2) fun t =>
  orRaise s (if taken c then .ok t else advance ov s 3) fun nip =>
  .next (s.retire nip)

end Sys2Proof.Machine
end

