-- ==== Sys2Proof/Machine/Arithmetic.lean ====
section
/-! DEFINITION. ADD and MUL (41_arithmetic.md R88 to R90). `…Under` is the meaning under either overflow mode. -/

namespace Sys2Proof.Machine

/-- ADD under an overflow mode (R88). -/
def addUnder (ov : OverflowMode) (m1 m2 m3 : Mode) (s : State) : Host.Outcome State Fault Refusal :=
  threeOperand ov (fun a b => add64 ov s.ip a b) m1 m2 m3 s

/-- MUL under an overflow mode (R89). -/
def mulUnder (ov : OverflowMode) (m1 m2 m3 : Mode) (s : State) : Host.Outcome State Fault Refusal :=
  threeOperand ov (fun a b => mul64 ov s.ip a b) m1 m2 m3 s

/-- ADD (R88). -/
def execAdd (m1 m2 m3 : Mode) (s : State) : Host.Outcome State Fault Refusal :=
  addUnder Config.overflowMode m1 m2 m3 s

/-- MUL (R89). -/
def execMul (m1 m2 m3 : Mode) (s : State) : Host.Outcome State Fault Refusal :=
  mulUnder Config.overflowMode m1 m2 m3 s

end Sys2Proof.Machine
end

