-- ==== Sys2Proof/Machine/Flags.lean ====
section
/-! DEFINITION. The block has no flags (10_state.md R24): a comparison's outcome is the cell 1 or 0, and a jump tests an
operand for zero. These are the two truth computations. -/

namespace Sys2Proof.Machine

/-- The cell a comparison writes: 1 or 0, "never any other value" (44_compare.md). -/
def truthCell (b : Bool) : Cell := if b then 1 else 0

/-- LT's result: parameter 1 below parameter 2, as signed integers (44_compare.md R96). -/
def lessThanCell (a b : Cell) : Cell := truthCell (decide (a.toInt < b.toInt))

/-- EQ's result (44_compare.md R97). -/
def equalsCell (a b : Cell) : Cell := truthCell (decide (a = b))

/-- A jump condition holds when it is not zero, negative values included (43_jumps.md R93). -/
def isNonzero (c : Cell) : Bool := decide (c ≠ 0)

/-- A jump condition fails only when it is zero (43_jumps.md R94). -/
def isZero (c : Cell) : Bool := decide (c = 0)

end Sys2Proof.Machine
end

