-- ==== Sys2Proof/Machine/Compare.lean ====
section
/-! DEFINITION. LT and EQ (44_compare.md R96, R97). The comparison itself never raises. -/

namespace Sys2Proof.Machine

/-- LT under an overflow mode (R96). -/
def ltUnder (ov : OverflowMode) (m1 m2 m3 : Mode) (s : State) : Host.Outcome State Fault Refusal :=
  threeOperand ov (fun a b => .ok (lessThanCell a b)) m1 m2 m3 s

/-- EQ under an overflow mode (R97). -/
def eqUnder (ov : OverflowMode) (m1 m2 m3 : Mode) (s : State) : Host.Outcome State Fault Refusal :=
  threeOperand ov (fun a b => .ok (equalsCell a b)) m1 m2 m3 s

/-- LT (R96). -/
def execLt (m1 m2 m3 : Mode) (s : State) : Host.Outcome State Fault Refusal :=
  ltUnder Config.overflowMode m1 m2 m3 s

/-- EQ (R97). -/
def execEq (m1 m2 m3 : Mode) (s : State) : Host.Outcome State Fault Refusal :=
  eqUnder Config.overflowMode m1 m2 m3 s

end Sys2Proof.Machine
end

