-- ==== Sys2Proof/Machine/Io.lean ====
section
/-! DEFINITION. IN and OUT (42_io.md R91, R92). -/

namespace Sys2Proof.Machine

/-- IN under an overflow mode (R91): the destination and the next `ip` are checked before the queue is tested, and an
empty queue suspends with nothing changed but the recorded status (40_controller.md R80, R81, R86). -/
def inUnder (ov : OverflowMode) (m1 : Mode) (s : State) : Host.Outcome State Fault Refusal :=
  orRaise s (legalTarget s.ip 1 m1) fun _ =>
  orRaise s (writeTarget ov s 1 m1) fun d =>
  orRaise s (advance ov s 2) fun nip =>
  match s.inQ with
  | [] => .next { s with status := .waitingForInput }
  | v :: rest => .next ((({ s with inQ := rest } : State).write d v).retire nip)

/-- OUT under an overflow mode (R92). -/
def outUnder (ov : OverflowMode) (m1 : Mode) (s : State) : Host.Outcome State Fault Refusal :=
  orRaise s (operand ov s 1 m1) fun v =>
  orRaise s (advance ov s 2) fun nip =>
  .next ((s.pushOutput v).retire nip)

/-- IN (R91). -/
def execIn (m1 : Mode) (s : State) : Host.Outcome State Fault Refusal := inUnder Config.overflowMode m1 s

/-- OUT (R92). -/
def execOut (m1 : Mode) (s : State) : Host.Outcome State Fault Refusal := outUnder Config.overflowMode m1 s

end Sys2Proof.Machine
end

