-- ==== Sys2Proof/Machine/Jumps.lean ====
section
/-! DEFINITION. JT and JF (43_jumps.md R93 to R95). A taken jump loads its target unchecked; a negative target is
refused by the next fetch (decision D9). -/

namespace Sys2Proof.Machine

/-- JT under an overflow mode (R93). -/
def jtUnder (ov : OverflowMode) (m1 m2 : Mode) (s : State) : Host.Outcome State Fault Refusal :=
  jumpWhen ov isNonzero m1 m2 s

/-- JF under an overflow mode (R94). -/
def jfUnder (ov : OverflowMode) (m1 m2 : Mode) (s : State) : Host.Outcome State Fault Refusal :=
  jumpWhen ov isZero m1 m2 s

/-- JT (R93). -/
def execJt (m1 m2 : Mode) (s : State) : Host.Outcome State Fault Refusal := jtUnder Config.overflowMode m1 m2 s

/-- JF (R94). -/
def execJf (m1 m2 : Mode) (s : State) : Host.Outcome State Fault Refusal := jfUnder Config.overflowMode m1 m2 s

end Sys2Proof.Machine
end

