-- ==== Sys2Proof/Machine/RelbaseHalt.lean ====
section
/-! DEFINITION. ARB and HALT (45_relbase_halt.md R98, R99). -/

namespace Sys2Proof.Machine

/-- ARB under an overflow mode (R98): a relative operand uses the old base; the new base may be negative. -/
def arbUnder (ov : OverflowMode) (m1 : Mode) (s : State) : Host.Outcome State Fault Refusal :=
  orRaise s (operand ov s 1 m1) fun v =>
  orRaise s (advance ov s 2) fun nip =>
  orRaise s (add64 ov s.ip s.rb v) fun nrb =>
  .next (({ s with rb := nrb } : State).retire nip)

/-- ARB (R98). -/
def execArb (m1 : Mode) (s : State) : Host.Outcome State Fault Refusal := arbUnder Config.overflowMode m1 s

/-- HALT (R99): "return `Terminated`, no further effect"; `ip` stays at the HALT. -/
def execHalt (s : State) : Host.Outcome State Fault Refusal := .next { s with status := .terminated }

end Sys2Proof.Machine
end

