-- ==== Sys2Proof/Machine/Step.lean ====
section
/-! DEFINITION. One step (40_controller.md R76, R77) and where the step fetches its next instruction. -/

namespace Sys2Proof.Machine

/-- `step()` (40_controller.md R76 to R81): refused while the fault mark is set, no effect once Terminated, else fetch,
decode and execute one instruction. The status or error `step()` returns is read from the next state (`stepReply`). -/
def step (s : State) : Host.Outcome State Fault Refusal :=
  match s.fault with
  | some e => .refused (.faultMarkSet e)
  | none =>
    if s.status = .terminated then .next s
    else orRaise s (fetchDecode s) fun i => exec i s

/-- `s` with the instruction whose bits are `w` stored where `step` fetches next: its four cells (the longest
instruction) from `ip` on. What would keep the step from fetching is set as the fetch needs it (log entry 6). -/
def State.withFetchWord (s : State) (nbits w : Nat) : State :=
  { s.fetchReady with mem := s.mem.placeTableWord s.fetchReady.ip.toNat nbits w }

end Sys2Proof.Machine
end

