-- ==== Sys2Proof/Machine/Assembly.lean ====
section
/-! DEFINITION. The assembly form of 30_encoding.md R68 (the spec's own, decision D16): a line, the cells it stands for,
the line a decoder prints, and its text. -/

namespace Sys2Proof.Machine

/-- An operand: `[n]`, `#n`, or `[rb+n]` / `[rb-n]` (R68). -/
inductive AsmOperand where
  | position (n : Cell)
  | immediate (n : Cell)
  | relative (n : Cell)
  deriving DecidableEq, Repr

/-- One line of assembly. For ADD, MUL, LT and EQ the third operand is the destination; for IN the only one (R68). -/
inductive AsmLine where
  | add (x y dst : AsmOperand)
  | mul (x y dst : AsmOperand)
  | inp (dst : AsmOperand)
  | out (x : AsmOperand)
  | jt (cond target : AsmOperand)
  | jf (cond target : AsmOperand)
  | lt (x y dst : AsmOperand)
  | eq (x y dst : AsmOperand)
  | arb (x : AsmOperand)
  | halt
  | cell (v : Cell)
  deriving DecidableEq, Repr

/-- The addressing mode of an operand form. -/
def AsmOperand.mode : AsmOperand → Mode
  | .position _ => .position
  | .immediate _ => .immediate
  | .relative _ => .relative

/-- The parameter cell of an operand. -/
def AsmOperand.cell : AsmOperand → Cell
  | .position n => n
  | .immediate n => n
  | .relative n => n

/-- The operand of a mode and a parameter cell. -/
def AsmOperand.ofCell (m : Mode) (n : Cell) : AsmOperand :=
  match m with
  | .position => .position n
  | .immediate => .immediate n
  | .relative => .relative n

/-- The cells of a line: the instruction word, the mode of every absent parameter 0, then the parameter cells (R68). -/
def AsmLine.assemble : AsmLine → List Cell
  | .add x y d => [encode (.add x.mode y.mode d.mode), x.cell, y.cell, d.cell]
  | .mul x y d => [encode (.mul x.mode y.mode d.mode), x.cell, y.cell, d.cell]
  | .inp d => [encode (.inp d.mode .position .position), d.cell]
  | .out x => [encode (.out x.mode .position .position), x.cell]
  | .jt c t => [encode (.jt c.mode t.mode .position), c.cell, t.cell]
  | .jf c t => [encode (.jf c.mode t.mode .position), c.cell, t.cell]
  | .lt x y d => [encode (.lt x.mode y.mode d.mode), x.cell, y.cell, d.cell]
  | .eq x y d => [encode (.eq x.mode y.mode d.mode), x.cell, y.cell, d.cell]
  | .arb x => [encode (.arb x.mode .position .position), x.cell]
  | .halt => [encode (.halt .position .position .position)]
  | .cell v => [v]

/-- The line a decoder prints for an instruction and the cells after it (R68): the modes of absent parameters do not
show. -/
def disassemble (i : Instr) (p1 p2 p3 : Cell) : AsmLine :=
  match i with
  | .add m1 m2 m3 => .add (.ofCell m1 p1) (.ofCell m2 p2) (.ofCell m3 p3)
  | .mul m1 m2 m3 => .mul (.ofCell m1 p1) (.ofCell m2 p2) (.ofCell m3 p3)
  | .inp m1 _ _ => .inp (.ofCell m1 p1)
  | .out m1 _ _ => .out (.ofCell m1 p1)
  | .jt m1 m2 _ => .jt (.ofCell m1 p1) (.ofCell m2 p2)
  | .jf m1 m2 _ => .jf (.ofCell m1 p1) (.ofCell m2 p2)
  | .lt m1 m2 m3 => .lt (.ofCell m1 p1) (.ofCell m2 p2) (.ofCell m3 p3)
  | .eq m1 m2 m3 => .eq (.ofCell m1 p1) (.ofCell m2 p2) (.ofCell m3 p3)
  | .arb m1 _ _ => .arb (.ofCell m1 p1)
  | .halt _ _ _ => .halt

/-- A signed decimal integer. -/
def cellText (v : Cell) : String := toString v.toInt

/-- The text of an operand (R68). -/
def AsmOperand.text : AsmOperand → String
  | .position n => "[" ++ cellText n ++ "]"
  | .immediate n => "#" ++ cellText n
  | .relative n => if n.toInt < 0 then "[rb" ++ cellText n ++ "]" else "[rb+" ++ cellText n ++ "]"

/-- A mnemonic and its operands, separated by commas (R68). -/
def operandsText (mnemonic : String) (ops : List AsmOperand) : String :=
  mnemonic ++ " " ++ ", ".intercalate (ops.map AsmOperand.text)

/-- The text of a line (R68). -/
def AsmLine.text : AsmLine → String
  | .add x y d => operandsText "ADD" [x, y, d]
  | .mul x y d => operandsText "MUL" [x, y, d]
  | .inp d => operandsText "IN" [d]
  | .out x => operandsText "OUT" [x]
  | .jt c t => operandsText "JT" [c, t]
  | .jf c t => operandsText "JF" [c, t]
  | .lt x y d => operandsText "LT" [x, y, d]
  | .eq x y d => operandsText "EQ" [x, y, d]
  | .arb x => operandsText "ARB" [x]
  | .halt => "HALT"
  | .cell v => ".cell " ++ cellText v

end Sys2Proof.Machine
end

