-- ==== Sys2Proof/Machine/PagedStore.lean ====
section
/-! DEFINITION. The paged sparse store that holds the cells (20_memory.md R35), for any page size (OPEN, decision D14).
No rule's result depends on pages (10_state.md R30), so `State` holds the flat memory; an obligation states that the
two read alike (log entry 2). -/

namespace Sys2Proof.Machine

/-- The pages that exist: page index and the page's cells. -/
abbrev PagedStore := List (Nat × List Cell)

/-- A new page holds 0 in every cell (R35). -/
def freshPage (pageSize : Nat) : List Cell := List.replicate pageSize untouched

/-- The page at an index, if it exists. -/
def PagedStore.page : PagedStore → Nat → Option (List Cell)
  | [], _ => none
  | (j, cells) :: rest, i => if i = j then some cells else PagedStore.page rest i

/-- Read an address: page `a div pageSize`, offset `a mod pageSize`; an absent page reads 0. A read creates no page. -/
def PagedStore.read (pageSize : Nat) (p : PagedStore) (a : Nat) : Cell :=
  match p.page (a / pageSize) with
  | none => untouched
  | some cells => cells.getD (a % pageSize) untouched

/-- Put a page in its place, creating it if it is absent. -/
def PagedStore.setPage : PagedStore → Nat → List Cell → PagedStore
  | [], i, cells => [(i, cells)]
  | (j, old) :: rest, i, cells =>
    if i = j then (i, cells) :: rest else (j, old) :: PagedStore.setPage rest i cells

/-- Write an address, creating its page on the first write. -/
def PagedStore.write (pageSize : Nat) (p : PagedStore) (a : Nat) (v : Cell) : PagedStore :=
  p.setPage (a / pageSize)
    (((p.page (a / pageSize)).getD (freshPage pageSize)).set (a % pageSize) v)

end Sys2Proof.Machine
end

