-- ==== Sys2Proof/Machine/HostInterface.lean ====
section
/-! DEFINITION. The host's public operations (40_controller.md R70 to R75, R82 to R87), as functions applied between
steps, and several instances side by side (10_state.md R18). -/

namespace Sys2Proof.Machine

/-- `push_input(v)` (R71): allowed in every state, changes the input queue only. -/
def State.pushInput (s : State) (v : Cell) : State := { s with inQ := s.inQ ++ [v] }

/-- `push_input` of each value in order. -/
def State.pushInputs (s : State) (vs : List Cell) : State := vs.foldl State.pushInput s

/-- `push_text_input(text)` (R72): the code point of each character, in order. A `Char` is one Unicode scalar value
(decision D21). -/
def State.pushTextInput (s : State) (text : List Char) : State :=
  s.pushInputs (text.map fun c => Cell.ofInt c.toNat)

/-- `pop_output()` (R73): the head of the output queue, or none when it is empty. -/
def State.popOutput (s : State) : Option Cell × State :=
  match s.outQ with
  | [] => (none, s)
  | v :: rest => (some v, { s with outQ := rest })

/-- `drain_output()` (R74). -/
def State.drainOutput (s : State) : List Cell × State := (s.outQ, { s with outQ := [] })

/-- `get_state()` (R75). -/
def State.getState (s : State) : Status := s.status

/-- What `step()` and `run()` give the host (R76, R82). -/
inductive StepReply where
  /-- the status returned, which is also the recorded one (R81) -/
  | status (st : Status)
  /-- the error raised (R101) -/
  | error (e : VmError)
  /-- the instance carries a fault mark: the call has no meaning (R103) -/
  | refused
  deriving DecidableEq, Repr

/-- `step()` with the reply the host gets and the instance afterwards (R76, R81). -/
def stepReply (s : State) : StepReply × State :=
  match step s with
  | .next t =>
    match t.fault with
    | none => (.status t.status, t)
    | some e => (.error e, t)
  | .fault f => nomatch f
  | .refused _ => (.refused, s)

/-- Where a `run()` that has been given a number of steps stands. -/
inductive RunResult where
  /-- `run()` returned this status -/
  | returned (st : Status) (s : State)
  /-- a step raised, and `run()` returned its error -/
  | failed (e : VmError) (s : State)
  /-- the instance carried a fault mark (R103) -/
  | refused
  /-- the steps given were all `Running`; `run()` has not returned yet -/
  | unfinished (s : State)
  deriving DecidableEq, Repr

/-- `run()` (R82), cut off after a number of steps. `run()` returns what this gives for some number of steps, and
hangs if it is unfinished for every number (log entry 11). -/
def runFor : Nat → State → RunResult
  | 0, s => .unfinished s
  | n + 1, s =>
    match stepReply s with
    | (.refused, _) => .refused
    | (.error e, t) => .failed e t
    | (.status .running, t) => runFor n t
    | (.status st, t) => .returned st t

/-- Host-level errors, which the block never raises (60_exceptions.md R109). -/
inductive HostError where
  /-- the orchestration expected an output and found none -/
  | missingOutput
  /-- the one-shot run ended in `WaitingForInput` -/
  | inputStarved
  /-- the run failed with an error of the block -/
  | vm (e : VmError)
  deriving DecidableEq, Repr

/-- How `run_program_with_inputs` stands after a number of steps. -/
inductive OneShot where
  | outputs (vs : List Cell)
  | failed (e : HostError)
  | unfinished
  deriving DecidableEq, Repr

/-- `run_program_with_inputs(program, inputs)` (R83), its run cut off after a number of steps. A new instance carries no
fault mark and `run()` returns no other status, so the last arm is never reached. -/
def runProgramWithInputs (fuel : Nat) (program inputs : List Cell) : OneShot :=
  match runFor fuel ((State.new program).pushInputs inputs) with
  | .returned .terminated s => .outputs s.drainOutput.1
  | .returned .waitingForInput _ => .failed .inputStarved
  | .failed e _ => .failed (.vm e)
  | .unfinished _ => .unfinished
  | _ => .unfinished

/-- Take one output, or the caller-level error that there is none (60_exceptions.md R109). -/
def State.expectOutput (s : State) : Except HostError (Cell × State) :=
  match s.popOutput with
  | (some v, t) => .ok (v, t)
  | (none, _) => .error .missingOutput

/-- Everything the host can observe of an instance (10_state.md R31): the status, the output queue and the error a
failing step returned. -/
structure HostView where
  status : Status
  outputs : List Cell
  error : Option VmError
  deriving DecidableEq, Repr

/-- The host's view of an instance. -/
def State.hostView (s : State) : HostView := ⟨s.status, s.outQ, s.fault⟩

/-! ## Calls, and several instances -/

/-- One call of a public operation on one instance, apart from `run`, which is a sequence of `step` calls (R82). -/
inductive HostCall where
  | pushInput (v : Cell)
  | pushTextInput (text : List Char)
  | popOutput
  | drainOutput
  | getState
  | step
  deriving DecidableEq, Repr

/-- What a call gives back. -/
inductive HostReply where
  | done
  | value (v : Option Cell)
  | values (vs : List Cell)
  | status (st : Status)
  | stepped (r : StepReply)
  deriving DecidableEq, Repr

/-- One indivisible call (00_scope.md R7, 40_controller.md R84). -/
def hostCall (c : HostCall) (s : State) : HostReply × State :=
  match c with
  | .pushInput v => (.done, s.pushInput v)
  | .pushTextInput text => (.done, s.pushTextInput text)
  | .popOutput => (.value s.popOutput.1, s.popOutput.2)
  | .drainOutput => (.values s.drainOutput.1, s.drainOutput.2)
  | .getState => (.status s.getState, s)
  | .step => (.stepped (stepReply s).1, (stepReply s).2)

/-- Any number of instances; each is its own block and they share nothing (10_state.md R18, 60_exceptions.md R117). -/
abbrev Bench := List State

/-- A call on instance `n` of a bench; a number that names no instance changes nothing and gives nothing. -/
def callOn (b : Bench) (n : Nat) (c : HostCall) : Option HostReply × Bench :=
  match b[n]? with
  | none => (none, b)
  | some s => (some (hostCall c s).1, b.set n (hostCall c s).2)

/-- The host drains instance `i` and pushes the values into instance `j` (R85); `i` and `j` may be the same. -/
def feed (b : Bench) (i j : Nat) : Bench :=
  match b[i]? with
  | none => b
  | some s =>
    let drained := b.set i s.drainOutput.2
    match drained[j]? with
    | none => drained
    | some t => drained.set j (t.pushInputs s.drainOutput.1)

end Sys2Proof.Machine
end

