-- ==== Sys2Proof/Safety.lean ====
section
/-! DEFINITION. What counts as a suspended, final, failing, hanging or safe run (40_controller.md R86, R87), what a raised error
may say (60_exceptions.md R104 to R108), and the invariant of the machine's states. -/

namespace Sys2Proof.Machine

/-- The run ended with HALT and no error: "It is final when it returns Terminated" (40_controller.md R87). -/
abbrev State.isFinal (s : State) : Prop := s.fault = none ∧ s.status = .terminated

/-- Suspended at an IN with no input: the host may push and resume (R86, R87). -/
abbrev State.isSuspended (s : State) : Prop := s.fault = none ∧ s.status = .waitingForInput

/-- The step fetches and executes: no fault mark, not Terminated (R77). -/
abbrev State.isLive (s : State) : Prop := s.fault = none ∧ s.status ≠ .terminated

/-- `run()` from `s` returns the status `st` and leaves `t`. -/
def Returns (s : State) (st : Status) (t : State) : Prop := ∃ n, runFor n s = .returned st t

/-- `run()` from `s` fails with the error `e` and leaves `t`. -/
def Fails (s : State) (e : VmError) (t : State) : Prop := ∃ n, runFor n s = .failed e t

/-- `run()` from `s` never returns (R82: an infinite loop of the program is an infinite loop of the run). -/
def Hangs (s : State) : Prop := ∀ n, ∃ t, runFor n s = .unfinished t

/-- A safe instance: `run()` from it never fails with an error of the block. -/
def Safe (s : State) : Prop := ∀ e t, ¬ Fails s e t

/-- What the fields of a raised error can be (60_exceptions.md R105 to R108). -/
def VmError.wf : VmError → Prop
  | .unknownOpcode _ op => -99 ≤ op ∧ op ≤ 98 ∧ Opcode.ofNumber op = none
  | .invalidParameterMode _ k m => (k = 1 ∨ k = 2) ∧ 3 ≤ m ∧ m ≤ 9 ∨ k = 3 ∧ 3 ≤ m ∨ (k = 1 ∨ k = 3) ∧ m = 1
  | .illegalMemoryAccess _ a => a.toInt < 0
  | .arithmeticOverflow _ => Config.overflowMode = .fault

/-- The invariant of the machine: canonical memory; and a fault mark is a well-formed error that reports the present
`ip` (the failing instruction is still addressed, 60_exceptions.md R111) in an instance that is not Terminated. -/
structure State.Inv (s : State) : Prop where
  mem_wf : Memory.wf s.mem
  fault_wf : ∀ e, s.fault = some e → VmError.wf e ∧ e.ip = s.ip ∧ s.status ≠ .terminated

end Sys2Proof.Machine
end

