-- ==== Sys2Proof/Certificates/Slice0/Obligations.lean ====
section
/-! DEFINITION. The statements for the provers, and the words they are written in. Each docstring names the sentence of
spec/ it formalises; where that sentence is a decision of the spec's own, the docstring names the decision. -/

namespace Sys2Proof.Machine

/-! ## The words of the statements -/

/-- `t` is `s` after an instruction that stored `v` at the address `d`, consumed the input queue down to `inQ`, and went
on at `nip`: the cell reads `v`, every other address reads as before, and nothing else changes. -/
structure StoredOneCell (s t : State) (d v nip : Cell) (inQ : List Cell) : Prop where
  stored : t.mem.read d.toNat = v
  elsewhere : ∀ x, x ≠ d.toNat → t.mem.read x = s.mem.read x
  ip : t.ip = nip
  rb : t.rb = s.rb
  inQ : t.inQ = inQ
  outQ : t.outQ = s.outQ
  status : t.status = .running
  fault : t.fault = s.fault

/-- The error of a line that raised. -/
def errorOf {α : Type} : Except VmError α → Option VmError
  | .ok _ => none
  | .error e => some e

/-- The value of a line that did not raise (0 where it did: such a value is never looked at). -/
def valueOf : Except VmError Cell → Cell
  | .ok v => v
  | .error _ => 0

/-- The checks of one executed instruction in the order of 60_exceptions.md R110, items 6 to 8 and 10: the write
target's mode, each R parameter, the W parameter, the next instruction pointer, the result. -/
def executeChecks (i : Instr) (s : State) : List (Option VmError) :=
  let ov := Config.overflowMode
  match i with
  | .add m1 m2 m3 =>
    [errorOf (legalTarget s.ip 3 m3), errorOf (operand ov s 1 m1), errorOf (operand ov s 2 m2),
      errorOf (writeTarget ov s 3 m3), errorOf (advance ov s 4),
      errorOf (add64 ov s.ip (valueOf (operand ov s 1 m1)) (valueOf (operand ov s 2 m2)))]
  | .mul m1 m2 m3 =>
    [errorOf (legalTarget s.ip 3 m3), errorOf (operand ov s 1 m1), errorOf (operand ov s 2 m2),
      errorOf (writeTarget ov s 3 m3), errorOf (advance ov s 4),
      errorOf (mul64 ov s.ip (valueOf (operand ov s 1 m1)) (valueOf (operand ov s 2 m2)))]
  | .lt m1 m2 m3 =>
    [errorOf (legalTarget s.ip 3 m3), errorOf (operand ov s 1 m1), errorOf (operand ov s 2 m2),
      errorOf (writeTarget ov s 3 m3), errorOf (advance ov s 4)]
  | .eq m1 m2 m3 =>
    [errorOf (legalTarget s.ip 3 m3), errorOf (operand ov s 1 m1), errorOf (operand ov s 2 m2),
      errorOf (writeTarget ov s 3 m3), errorOf (advance ov s 4)]
  | .inp m1 _ _ =>
    [errorOf (legalTarget s.ip 1 m1), errorOf (writeTarget ov s 1 m1), errorOf (advance ov s 2)]
  | .out m1 _ _ => [errorOf (operand ov s 1 m1), errorOf (advance ov s 2)]
  | .jt m1 m2 _ =>
    [errorOf (operand ov s 1 m1), errorOf (operand ov s 2 m2),
      if valueOf (operand ov s 1 m1) ≠ 0 then none else errorOf (advance ov s 3)]
  | .jf m1 m2 _ =>
    [errorOf (operand ov s 1 m1), errorOf (operand ov s 2 m2),
      if valueOf (operand ov s 1 m1) = 0 then none else errorOf (advance ov s 3)]
  | .arb m1 _ _ =>
    [errorOf (operand ov s 1 m1), errorOf (advance ov s 2),
      errorOf (add64 ov s.ip s.rb (valueOf (operand ov s 1 m1)))]
  | .halt _ _ _ => []

/-- The address an instruction stores to, for the instructions that store (20_memory.md R41). -/
def storeAddress (i : Instr) (s : State) : Option (Except VmError Cell) :=
  match i with
  | .add _ _ m3 => some (writeTarget Config.overflowMode s 3 m3)
  | .mul _ _ m3 => some (writeTarget Config.overflowMode s 3 m3)
  | .lt _ _ m3 => some (writeTarget Config.overflowMode s 3 m3)
  | .eq _ _ m3 => some (writeTarget Config.overflowMode s 3 m3)
  | .inp m1 _ _ => some (writeTarget Config.overflowMode s 1 m1)
  | .out _ _ _ => none
  | .jt _ _ _ => none
  | .jf _ _ _ => none
  | .arb _ _ _ => none
  | .halt _ _ _ => none

/-- The value an instruction stores, from the state before it: the checked sum or product, the comparison's 1 or 0, or the
head of the input queue. -/
def storedValue (i : Instr) (s : State) : Option Cell :=
  let ov := Config.overflowMode
  match i with
  | .add m1 m2 _ =>
    some (valueOf (add64 ov s.ip (valueOf (operand ov s 1 m1)) (valueOf (operand ov s 2 m2))))
  | .mul m1 m2 _ =>
    some (valueOf (mul64 ov s.ip (valueOf (operand ov s 1 m1)) (valueOf (operand ov s 2 m2))))
  | .lt m1 m2 _ =>
    some (if (valueOf (operand ov s 1 m1)).toInt < (valueOf (operand ov s 2 m2)).toInt then 1 else 0)
  | .eq m1 m2 _ => some (if valueOf (operand ov s 1 m1) = valueOf (operand ov s 2 m2) then 1 else 0)
  | .inp _ _ _ => s.inQ.head?
  | .out _ _ _ => none
  | .jt _ _ _ => none
  | .jf _ _ _ => none
  | .arb _ _ _ => none
  | .halt _ _ _ => none

/-- A run of writes, oldest first. -/
def writes (m : Memory) (ws : List (Nat × Cell)) : Memory := ws.foldl (fun m c => m.write c.1 c.2) m

/-- A run of writes to a paged store. -/
def pagedWrites (pageSize : Nat) (p : PagedStore) (ws : List (Nat × Cell)) : PagedStore :=
  ws.foldl (fun p c => p.write pageSize c.1 c.2) p

end Sys2Proof.Machine

open Sys2Proof Sys2Proof.Machine

/-! ## Decoding and encoding -/

/-- Words written out from the spec's encodings (the examples of 30_encoding.md R66 and R68 and the words of
95_test_vectors.md) decode to the instructions they stand for, and its illegal words are refused with the error the
spec gives. Rests on the mode digits of decision D2 and on decisions D3 to D7. -/
def Obligations.SpecWordsDecode : Prop :=
  decode (Cell.ofInt 1101) = .ok (.add .immediate .immediate .position) ∧
  decode (Cell.ofInt 21101) = .ok (.add .immediate .immediate .relative) ∧
  decode (Cell.ofInt 1002) = .ok (.mul .position .immediate .position) ∧
  decode (Cell.ofInt 203) = .ok (.inp .relative .position .position) ∧
  decode (Cell.ofInt 104) = .ok (.out .immediate .position .position) ∧
  decode (Cell.ofInt 2105) = .ok (.jt .immediate .relative .position) ∧
  decode (Cell.ofInt 1006) = .ok (.jf .position .immediate .position) ∧
  decode (Cell.ofInt 1107) = .ok (.lt .immediate .immediate .position) ∧
  decode (Cell.ofInt 8) = .ok (.eq .position .position .position) ∧
  decode (Cell.ofInt 109) = .ok (.arb .immediate .position .position) ∧
  decode (Cell.ofInt 99) = .ok (.halt .position .position .position) ∧
  decode (Cell.ofInt 10099) = .ok (.halt .position .position .immediate) ∧
  decode (Cell.ofInt 22299) = .ok (.halt .relative .relative .relative) ∧
  decode (Cell.ofInt 98) = .error (.unknownOpcode 98) ∧
  decode (Cell.ofInt (-199)) = .error (.unknownOpcode (-99)) ∧
  decode (Cell.ofInt 399) = .error (.invalidParameterMode 1 3) ∧
  decode (Cell.ofInt 100001) = .error (.invalidParameterMode 3 10) ∧
  decode (Cell.ofInt 11101) = .error (.invalidParameterMode 3 1) ∧
  decode (Cell.ofInt 103) = .error (.invalidParameterMode 1 1)

/-- Decode and encode agree in both directions: a word decodes to an instruction exactly when the instruction is well
formed and the word is its encoding. Formalises the layout of 30_encoding.md R50 and "Every other word decodes to exactly
one instruction" (R65); the layout rests on decisions D2 and D4. -/
def Obligations.DecodeAndEncodeAgree : Prop :=
  ∀ (w : Cell) (i : Instr), decode w = .ok i ↔ i.wellFormed = true ∧ encode i = w

/-- Which error a word that is no instruction gives, in the order of 40_controller.md R79: the opcode, the three mode
fields, the write target; any other word decodes to an instruction with its opcode. The fields are read off the
word's signed value with integer division. The order is the spec's decision D6, the fields D3 and D4, the checks D5 and
D7. -/
def Obligations.DecodeRefusesAtTheFirstInvalidField : Prop :=
  ∀ (w : Cell) (op m1 m2 m3 : Int),
    op = w.toInt.tmod 100 → m1 = w.toInt / 100 % 10 → m2 = w.toInt / 1000 % 10 → m3 = w.toInt / 10000 →
    if op ∉ [1, 2, 3, 4, 5, 6, 7, 8, 9, 99] then decode w = .error (.unknownOpcode op)
    else if 3 ≤ m1 then decode w = .error (.invalidParameterMode 1 m1.toNat)
    else if 3 ≤ m2 then decode w = .error (.invalidParameterMode 2 m2.toNat)
    else if 3 ≤ m3 then decode w = .error (.invalidParameterMode 3 m3.toNat)
    else if op ∈ [1, 2, 7, 8] ∧ m3 = 1 then decode w = .error (.invalidParameterMode 3 1)
    else if op = 3 ∧ m1 = 1 then decode w = .error (.invalidParameterMode 1 1)
    else ∃ i, decode w = .ok i ∧ i.opcode.number = op ∧ i.modes.1.digit = m1 ∧ i.modes.2.1.digit = m2 ∧
      i.modes.2.2.digit = m3

/-- A negative word is never an instruction; its reported opcode is the truncated remainder, in -99..0
(30_encoding.md R49, R51; decision D3). -/
def Obligations.NegativeWordsAreUnknownOpcodes : Prop :=
  ∀ w : Cell, w.toInt < 0 →
    decode w = .error (.unknownOpcode (w.toInt.tmod 100)) ∧ -99 ≤ w.toInt.tmod 100 ∧ w.toInt.tmod 100 ≤ 0

/-- "The known opcodes are exactly {1, 2, 3, 4, 5, 6, 7, 8, 9, 99}, with the mnemonics, widths and roles of rule R55"
(30_encoding.md R64): the numbers, and each opcode's number, width, count of R parameters and W parameter. -/
def Obligations.KnownOpcodesWidthsAndRoles : Prop :=
  (∀ n : Int, (∃ op, Opcode.ofNumber n = some op) ↔ n ∈ [1, 2, 3, 4, 5, 6, 7, 8, 9, 99]) ∧
  (∀ (n : Int) (op : Opcode), Opcode.ofNumber n = some op ↔ op.number = n) ∧
  ([Opcode.add, .mul, .inp, .out, .jt, .jf, .lt, .eq, .arb, .halt].map fun op =>
      (op.number, op.width, op.readCount, op.targetIndex)) =
    [(1, 4, 2, some 3), (2, 4, 2, some 3), (3, 2, 0, some 1), (4, 2, 1, none), (5, 3, 2, none), (6, 3, 2, none),
      (7, 4, 2, some 3), (8, 4, 2, some 3), (9, 2, 1, none), (99, 1, 0, none)]

/-- An assembled line that is an instruction is printed back from its decoded word and its parameter cells, and it has as
many cells as the opcode's width (30_encoding.md R68; the syntax is the spec's decision D16). -/
def Obligations.AssembledLinesPrintBack : Prop :=
  ∀ (line : AsmLine) (w : Cell) (ps : List Cell) (i : Instr),
    (∀ v, line ≠ .cell v) → line.assemble = w :: ps → decode w = .ok i →
    disassemble i (ps.getD 0 0) (ps.getD 1 0) (ps.getD 2 0) = line ∧ ps.length + 1 = i.opcode.width

/-! ## Memory -/

/-- "Every later `MemRead(a, 1)` returns `v` until the next write to `a`. No other cell changes." (20_memory.md R34), with
its §8 property: a write past the end of a program succeeds, and untouched addresses read as zero. -/
def Obligations.WriteIsReadBackUntilTheNextWrite : Prop :=
  (∀ (m : Memory) (a : Nat) (v : Cell) (later : List (Nat × Cell)), (∀ c ∈ later, c.1 ≠ a) →
    (writes (m.write a v) later).read a = v) ∧
  (∀ (m : Memory) (a b : Nat) (v : Cell), b ≠ a → (m.write a v).read b = m.read b) ∧
  (∀ (program : List Cell) (a : Nat) (v : Cell), program.length ≤ a →
    ((State.new program).mem.write a v).read a = v ∧
    ∀ b, program.length ≤ b → b ≠ a → ((State.new program).mem.write a v).read b = 0)

/-- `MemRead` "returns the value of the last `MemWrite` to `a`", else the value `new` loaded at `a`, else 0
(20_memory.md R33); and every caller checks the address first: a fetch and a resolved parameter are never negative. -/
def Obligations.ReadGivesLastWriteElseLoadedElseZero : Prop :=
  (∀ (program : List Cell) (ws : List (Nat × Cell)) (a : Nat), a < 2 ^ 63 →
    (writes (State.new program).mem ws).read a =
      match ws.reverse.find? (fun c => c.1 = a) with
      | some c => c.2
      | none => if h : a < program.length then program[a] else 0) ∧
  (∀ (s : State) (w : Cell), fetch s = .ok w → 0 ≤ s.ip.toInt ∧ w = s.mem.read s.ip.toNat) ∧
  (∀ (ov : OverflowMode) (s : State) (k : Nat) (m : Mode) (a : Cell),
    effectiveAddress ov s k m = .ok a → 0 ≤ a.toInt)

/-- Equal memories are equal data: two canonical memories that read alike everywhere are the same list. This is the
model's own canonical form (log entry 5). -/
def Obligations.CanonicalMemoriesThatReadAlikeAreEqual : Prop :=
  ∀ m n : Memory, Memory.wf m → Memory.wf n → (∀ a, m.read a = n.read a) → m = n

/-- The paged sparse store (20_memory.md R35): for every page size, the paged store and the flat memory read alike after
any writes, so what memory reads as depends neither on the page size nor on which pages exist. Page size is decision D14
(log entry 2). -/
def Obligations.PagedStoreReadsAsFlatMemory : Prop :=
  ∀ (pageSize : Nat) (ws : List (Nat × Cell)) (a : Nat), 0 < pageSize →
    PagedStore.read pageSize (pagedWrites pageSize [] ws) a = (writes [] ws).read a

/-! ## Checked arithmetic -/

/-- "`wrap64(v)` is the unique `Int64` value congruent to `v` modulo 2^64: `((v + 2^63) mod 2^64) - 2^63`."
(00_scope.md R12) -/
def Obligations.WrapIsTheUniqueCongruentCell : Prop :=
  ∀ v : Int, (wrap64 v).toInt = (v + 2 ^ 63) % 2 ^ 64 - 2 ^ 63 ∧
    ∀ c : Cell, (c.toInt - v) % 2 ^ 64 = 0 ↔ c = wrap64 v

/-- Checked sums and products: the exact result in `Int64`; outside it the overflow error under Fault and the wrapped
result under Wrap (00_scope.md R11; decision D8). -/
def Obligations.CheckedArithmeticFollowsTheOverflowMode : Prop :=
  ∀ (ip a b : Cell) (exact : Int) (f : OverflowMode → Except VmError Cell),
    ((exact = a.toInt + b.toInt ∧ f = fun ov => add64 ov ip a b) ∨
     (exact = a.toInt * b.toInt ∧ f = fun ov => mul64 ov ip a b)) →
    if -2 ^ 63 ≤ exact ∧ exact < 2 ^ 63 then ∀ ov, ∃ c, f ov = .ok c ∧ c.toInt = exact
    else f .fault = .error (.arithmeticOverflow ip) ∧
      ∃ c, f .wrap = .ok c ∧ c.toInt = (exact + 2 ^ 63) % 2 ^ 64 - 2 ^ 63

/-- The next instruction pointer is `ip + width`; past the top of the address space it is the overflow error under
Fault and a negative value under Wrap (10_state.md R21, R22; decision D8). -/
def Obligations.AdvanceAddsTheWidth : Prop :=
  ∀ (s : State) (width : Nat), width ≤ 4 → 0 ≤ s.ip.toInt →
    if s.ip.toInt + width < 2 ^ 63 then
      ∀ ov, ∃ nip, advance ov s width = .ok nip ∧ nip.toInt = s.ip.toInt + width
    else advance .fault s width = .error (.arithmeticOverflow s.ip) ∧
      ∃ nip, advance .wrap s width = .ok nip ∧ nip.toInt = s.ip.toInt + width - 2 ^ 64 ∧ nip.toInt < 0

/-! ## Operand resolution -/

/-- "The value of the parameter cell is the address: `EA(k) = MemRead(ip + k, 1)`. If that value is negative, the mode
raises `IllegalMemoryAccess(ip, value)`. The same rule applies to reads and to write targets." (30_encoding.md R58) -/
def Obligations.PositionModeUsesTheParameterCellAsAddress : Prop :=
  ∀ (ov : OverflowMode) (s : State) (k : Nat) (value : Cell),
    0 ≤ s.ip.toInt → s.ip.toInt + k < 2 ^ 63 → value = s.mem.read (s.ip.toNat + k) →
    if value.toInt < 0 then
      operand ov s k .position = .error (.illegalMemoryAccess s.ip value) ∧
      writeTarget ov s k .position = .error (.illegalMemoryAccess s.ip value)
    else
      operand ov s k .position = .ok (s.mem.read value.toNat) ∧ writeTarget ov s k .position = .ok value

/-- Relative mode: the parameter cell's value plus `rb`; a negative sum is an error that reports it, for reads and for
write targets (30_encoding.md R59). A sum outside `Int64` follows the overflow mode (decision D8). -/
def Obligations.RelativeModeAddsTheRelativeBase : Prop :=
  ∀ (s : State) (k : Nat) (sum : Int),
    0 ≤ s.ip.toInt → s.ip.toInt + k < 2 ^ 63 → sum = (s.mem.read (s.ip.toNat + k)).toInt + s.rb.toInt →
    if sum < -2 ^ 63 ∨ 2 ^ 63 ≤ sum then
      operand .fault s k .relative = .error (.arithmeticOverflow s.ip) ∧
      writeTarget .fault s k .relative = .error (.arithmeticOverflow s.ip) ∧
      if 0 ≤ sum then
        operand .wrap s k .relative = .error (.illegalMemoryAccess s.ip (wrap64 sum)) ∧
        writeTarget .wrap s k .relative = .error (.illegalMemoryAccess s.ip (wrap64 sum))
      else
        operand .wrap s k .relative = .ok (s.mem.read (wrap64 sum).toNat) ∧
        writeTarget .wrap s k .relative = .ok (wrap64 sum)
    else if sum < 0 then
      ∀ ov, operand ov s k .relative = .error (.illegalMemoryAccess s.ip (Cell.ofInt sum)) ∧
        writeTarget ov s k .relative = .error (.illegalMemoryAccess s.ip (Cell.ofInt sum))
    else
      ∀ ov, operand ov s k .relative = .ok (s.mem.read sum.toNat) ∧
        ∃ d, writeTarget ov s k .relative = .ok d ∧ d.toInt = sum

/-- Immediate mode: the effective address is the parameter's own cell, and the operand is the value it holds
(30_encoding.md R60, which marks the second part as derived). -/
def Obligations.ImmediateModeReadsTheParameterCell : Prop :=
  ∀ (ov : OverflowMode) (s : State) (k : Nat), 0 ≤ s.ip.toInt → s.ip.toInt + k < 2 ^ 63 →
    (∃ p, effectiveAddress ov s k .immediate = .ok p ∧ p.toNat = s.ip.toNat + k) ∧
    operand ov s k .immediate = .ok (s.mem.read (s.ip.toNat + k))

/-- A parameter cell past the top of the address space: the overflow error under Fault, a negative address under Wrap,
for every mode (30_encoding.md R57, 60_exceptions.md R107; decision D8). -/
def Obligations.ParameterCellPastTheTopIsAnError : Prop :=
  ∀ (s : State) (k : Nat) (m : Mode), k ≤ 3 → 0 ≤ s.ip.toInt → 2 ^ 63 ≤ s.ip.toInt + k →
    effectiveAddress .fault s k m = .error (.arithmeticOverflow s.ip) ∧
    effectiveAddress .wrap s k m = .error (.illegalMemoryAccess s.ip (wrap64 (s.ip.toInt + k)))

/-! ## What each instruction does -/

/-- ADD: operands and target resolved, the sum is stored at the target and the next `ip` is the advance; every other
component keeps its value (41_arithmetic.md R88). A sum outside `Int64` raises under Fault and is stored wrapped under
Wrap (decision D8). -/
def Obligations.AddStoresTheSum : Prop :=
  ∀ (m1 m2 m3 : Mode) (s : State) (a b d nip : Cell), m3 ≠ .immediate →
    operand Config.overflowMode s 1 m1 = .ok a → operand Config.overflowMode s 2 m2 = .ok b →
    writeTarget Config.overflowMode s 3 m3 = .ok d → advance Config.overflowMode s 4 = .ok nip →
    if inInt64 (a.toInt + b.toInt) = true then
      ∃ t, exec (.add m1 m2 m3) s = .next t ∧ StoredOneCell s t d (Cell.ofInt (a.toInt + b.toInt)) nip s.inQ
    else
      match Config.overflowMode with
      | .fault => exec (.add m1 m2 m3) s = .next { s with fault := some (.arithmeticOverflow s.ip) }
      | .wrap => ∃ t, exec (.add m1 m2 m3) s = .next t ∧ StoredOneCell s t d (wrap64 (a.toInt + b.toInt)) nip s.inQ

/-- MUL: as ADD, with the product (41_arithmetic.md R89; decision D8 for a product outside `Int64`). -/
def Obligations.MulStoresTheProduct : Prop :=
  ∀ (m1 m2 m3 : Mode) (s : State) (a b d nip : Cell), m3 ≠ .immediate →
    operand Config.overflowMode s 1 m1 = .ok a → operand Config.overflowMode s 2 m2 = .ok b →
    writeTarget Config.overflowMode s 3 m3 = .ok d → advance Config.overflowMode s 4 = .ok nip →
    if inInt64 (a.toInt * b.toInt) = true then
      ∃ t, exec (.mul m1 m2 m3) s = .next t ∧ StoredOneCell s t d (Cell.ofInt (a.toInt * b.toInt)) nip s.inQ
    else
      match Config.overflowMode with
      | .fault => exec (.mul m1 m2 m3) s = .next { s with fault := some (.arithmeticOverflow s.ip) }
      | .wrap => ∃ t, exec (.mul m1 m2 m3) s = .next t ∧ StoredOneCell s t d (wrap64 (a.toInt * b.toInt)) nip s.inQ

/-- LT stores 1 when parameter 1 is below parameter 2 as signed integers and 0 otherwise, and nothing else changes
(44_compare.md R96, whose sense of the comparison is the spec's own reading). -/
def Obligations.LtStoresOneOrZero : Prop :=
  ∀ (m1 m2 m3 : Mode) (s : State) (a b d nip : Cell), m3 ≠ .immediate →
    operand Config.overflowMode s 1 m1 = .ok a → operand Config.overflowMode s 2 m2 = .ok b →
    writeTarget Config.overflowMode s 3 m3 = .ok d → advance Config.overflowMode s 4 = .ok nip →
    ∃ t, exec (.lt m1 m2 m3) s = .next t ∧
      StoredOneCell s t d (if a.toInt < b.toInt then 1 else 0) nip s.inQ

/-- EQ stores 1 when the operands are the same integer and 0 otherwise, and nothing else changes (44_compare.md R97). -/
def Obligations.EqStoresOneOrZero : Prop :=
  ∀ (m1 m2 m3 : Mode) (s : State) (a b d nip : Cell), m3 ≠ .immediate →
    operand Config.overflowMode s 1 m1 = .ok a → operand Config.overflowMode s 2 m2 = .ok b →
    writeTarget Config.overflowMode s 3 m3 = .ok d → advance Config.overflowMode s 4 = .ok nip →
    ∃ t, exec (.eq m1 m2 m3) s = .next t ∧
      StoredOneCell s t d (if a.toInt = b.toInt then 1 else 0) nip s.inQ

/-- IN with input waiting stores the head of the queue at its target, removes it and advances by 2 (42_io.md R91). -/
def Obligations.InStoresTheHeadOfTheInputQueue : Prop :=
  ∀ (m1 m2 m3 : Mode) (s : State) (d nip v : Cell) (rest : List Cell), m1 ≠ .immediate →
    writeTarget Config.overflowMode s 1 m1 = .ok d → advance Config.overflowMode s 2 = .ok nip →
    s.inQ = v :: rest →
    ∃ t, exec (.inp m1 m2 m3) s = .next t ∧ StoredOneCell s t d v nip rest

/-- IN with an empty queue changes nothing but the recorded status, once its target and its advance are checked
(42_io.md R91; the order of the checks is decision D6). -/
def Obligations.InSuspendsOnAnEmptyQueue : Prop :=
  ∀ (m1 m2 m3 : Mode) (s : State) (d nip : Cell), m1 ≠ .immediate →
    writeTarget Config.overflowMode s 1 m1 = .ok d → advance Config.overflowMode s 2 = .ok nip → s.inQ = [] →
    exec (.inp m1 m2 m3) s = .next { s with status := .waitingForInput }

/-- OUT appends its operand to the output queue and advances by 2 (42_io.md R92). -/
def Obligations.OutAppendsItsOperand : Prop :=
  ∀ (m1 m2 m3 : Mode) (s : State) (v nip : Cell),
    operand Config.overflowMode s 1 m1 = .ok v → advance Config.overflowMode s 2 = .ok nip →
    exec (.out m1 m2 m3) s = .next { s with outQ := s.outQ ++ [v], ip := nip, status := .running }

/-- JT loads its target, unchecked, when the condition is nonzero, and advances by 3 otherwise; nothing else changes
(43_jumps.md R93; the unchecked target is decision D9). -/
def Obligations.JtJumpsWhenNonzero : Prop :=
  ∀ (m1 m2 m3 : Mode) (s : State) (c target : Cell),
    operand Config.overflowMode s 1 m1 = .ok c → operand Config.overflowMode s 2 m2 = .ok target →
    if c.toInt ≠ 0 then exec (.jt m1 m2 m3) s = .next { s with ip := target, status := .running }
    else ∀ nip, advance Config.overflowMode s 3 = .ok nip →
      exec (.jt m1 m2 m3) s = .next { s with ip := nip, status := .running }

/-- JF loads its target, unchecked, when the condition is zero, and advances by 3 otherwise; nothing else changes
(43_jumps.md R94; the unchecked target is decision D9). -/
def Obligations.JfJumpsWhenZero : Prop :=
  ∀ (m1 m2 m3 : Mode) (s : State) (c target : Cell),
    operand Config.overflowMode s 1 m1 = .ok c → operand Config.overflowMode s 2 m2 = .ok target →
    if c.toInt = 0 then exec (.jf m1 m2 m3) s = .next { s with ip := target, status := .running }
    else ∀ nip, advance Config.overflowMode s 3 = .ok nip →
      exec (.jf m1 m2 m3) s = .next { s with ip := nip, status := .running }

/-- ARB adds its operand, read with the old base, to the relative base and advances by 2; the new base may be negative
(45_relbase_halt.md R98). A sum outside `Int64` follows the overflow mode (decision D8). -/
def Obligations.ArbAddsToTheRelativeBase : Prop :=
  ∀ (m1 m2 m3 : Mode) (s : State) (v nip : Cell),
    operand Config.overflowMode s 1 m1 = .ok v → advance Config.overflowMode s 2 = .ok nip →
    if inInt64 (s.rb.toInt + v.toInt) = true then
      ∃ nrb, nrb.toInt = s.rb.toInt + v.toInt ∧
        exec (.arb m1 m2 m3) s = .next { s with rb := nrb, ip := nip, status := .running }
    else
      match Config.overflowMode with
      | .fault => exec (.arb m1 m2 m3) s = .next { s with fault := some (.arithmeticOverflow s.ip) }
      | .wrap => exec (.arb m1 m2 m3) s =
          .next { s with rb := wrap64 (s.rb.toInt + v.toInt), ip := nip, status := .running }

/-- HALT "return `Terminated`, no further effect" (45_relbase_halt.md R99): a live instance whose word at `ip` has opcode
99 and valid mode digits steps to the same state with the status Terminated, and every later step leaves that state as
it is; a word of opcode 99 with an invalid mode digit raises `InvalidParameterMode`. -/
def Obligations.HaltTerminatesAndStays : Prop :=
  (∀ (m1 m2 m3 : Mode) (s : State), exec (.halt m1 m2 m3) s = .next { s with status := .terminated }) ∧
  (∀ (s : State) (d1 d2 d3 : Nat), s.isLive → 0 ≤ s.ip.toInt → d1 ≤ 9 → d2 ≤ 9 →
    (s.mem.read s.ip.toNat).toInt = 99 + 100 * d1 + 1000 * d2 + 10000 * d3 →
    if d1 ≤ 2 ∧ d2 ≤ 2 ∧ d3 ≤ 2 then
      step s = .next { s with status := .terminated } ∧
      step { s with status := .terminated } = .next { s with status := .terminated }
    else ∃ k m, (k = 1 ∧ m = d1 ∨ k = 2 ∧ m = d2 ∨ k = 3 ∧ m = d3) ∧ 3 ≤ m ∧
      step s = .next { s with fault := some (.invalidParameterMode s.ip k m) })

/-! ## Errors -/

/-- The first failing check, in the order of 60_exceptions.md R110, is the error an instruction raises, and it changes
only the fault mark; an instruction none of whose checks fails raises nothing (decision D6). For an instruction with an
immediate write target, which no word decodes to, what the first check makes `exec` raise is the model's own, DEDUCED
(log entry 7). -/
def Obligations.FirstFailingCheckIsRaised : Prop :=
  ∀ (i : Instr) (s : State),
    match (executeChecks i s).findSome? id with
    | some e => exec i s = .next { s with fault := some e }
    | none => ∃ t, exec i s = .next t ∧ t.fault = s.fault

/-- A live instance with a negative `ip` raises `IllegalMemoryAccess(ip, ip)` at fetch (40_controller.md R78; decision
D9). -/
def Obligations.NegativeIpRaisesAtFetch : Prop :=
  ∀ s : State, s.isLive → s.ip.toInt < 0 →
    step s = .next { s with fault := some (.illegalMemoryAccess s.ip s.ip) }

/-- A live instance whose word at `ip` is no instruction raises the decoder's error with its `ip` (40_controller.md R79;
decision D6). -/
def Obligations.UndecodableWordRaises : Prop :=
  ∀ (s : State), s.isLive → 0 ≤ s.ip.toInt →
    (∀ op, decode (s.mem.read s.ip.toNat) = .error (.unknownOpcode op) →
      step s = .next { s with fault := some (.unknownOpcode s.ip op) }) ∧
    (∀ k m, decode (s.mem.read s.ip.toNat) = .error (.invalidParameterMode k m) →
      step s = .next { s with fault := some (.invalidParameterMode s.ip k m) })

/-- Error entry (60_exceptions.md R101): a step that raises changes nothing but the fault mark, the error goes to the
host, and a `run()` ends with it at once. That the failing instruction has no effect is decision D10. -/
def Obligations.RaisingStepChangesOnlyTheFaultMark : Prop :=
  ∀ (s t : State) (e : VmError), step s = .next t → t.fault = some e →
    t = { s with fault := some e } ∧ stepReply s = (.error e, t) ∧ ∀ n, runFor (n + 1) s = .failed e t

/-- With the fault mark set every `step()` and `run()` is refused, and nothing changes (60_exceptions.md R103; decision
D10). The statement says where the step stops. -/
def Obligations.FaultedInstanceIsRefused : Prop :=
  ∀ (s : State) (e : VmError), s.fault = some e →
    step s = .refused (.faultMarkSet e) ∧ stepReply s = (.refused, s) ∧ ∀ n, runFor (n + 1) s = .refused

/-- No instruction and no step of an instance without a fault mark stops the machine: each answers a next state. The
error entry as a next state is the model's (log entry 3). -/
def Obligations.EveryStepWithoutFaultMarkAnswers : Prop :=
  (∀ (i : Instr) (s : State), ∃ t, exec i s = .next t) ∧
  ∀ s : State, s.fault = none → ∃ t, step s = .next t

/-! ## Frames -/

/-- Frame of ADD, MUL, LT and EQ: the registers and queues but `ip` keep their values; when the target resolves to `d`,
every address but `d` reads as before; when it does not, all of memory is as before (20_memory.md R34, R41). -/
def Obligations.StoringInstructionsFrame : Prop :=
  ∀ (m1 m2 m3 : Mode) (i : Instr) (s t : State), i ∈ [Instr.add m1 m2 m3, .mul m1 m2 m3, .lt m1 m2 m3, .eq m1 m2 m3] →
    exec i s = .next t →
    t.rb = s.rb ∧ t.inQ = s.inQ ∧ t.outQ = s.outQ ∧
    (∀ d, writeTarget Config.overflowMode s 3 m3 = .ok d → ∀ x, x ≠ d.toNat → t.mem.read x = s.mem.read x) ∧
    (∀ e, writeTarget Config.overflowMode s 3 m3 = .error e → t.mem = s.mem)

/-- Frame of IN: `rb` and the output queue keep their values, the input queue loses its head or nothing, and every
address but the target reads as before (42_io.md R91). -/
def Obligations.InFrame : Prop :=
  ∀ (m1 m2 m3 : Mode) (s t : State), exec (.inp m1 m2 m3) s = .next t →
    t.rb = s.rb ∧ t.outQ = s.outQ ∧ (t.inQ = s.inQ ∨ t.inQ = s.inQ.tail) ∧
    (∀ d, writeTarget Config.overflowMode s 1 m1 = .ok d → ∀ x, x ≠ d.toNat → t.mem.read x = s.mem.read x) ∧
    (∀ e, writeTarget Config.overflowMode s 1 m1 = .error e → t.mem = s.mem) ∧
    (s.inQ = [] → t.mem = s.mem ∧ t.ip = s.ip)

/-- Frame of OUT, JT, JF, ARB and HALT: memory and the input queue are as before; the output queue changes only under OUT
and `rb` only under ARB; HALT leaves `ip` (42_io.md R92, 43_jumps.md, 45_relbase_halt.md). -/
def Obligations.NonStoringInstructionsFrame : Prop :=
  ∀ (m1 m2 m3 : Mode) (i : Instr) (s t : State),
    i ∈ [Instr.out m1 m2 m3, .jt m1 m2 m3, .jf m1 m2 m3, .arb m1 m2 m3, .halt m1 m2 m3] → exec i s = .next t →
    t.mem = s.mem ∧ t.inQ = s.inQ ∧ (i.opcode ≠ .out → t.outQ = s.outQ) ∧ (i.opcode ≠ .arb → t.rb = s.rb) ∧
    (i.opcode = .halt → t.ip = s.ip)

/-! ## The whole machine -/

/-- The relative base is "adjustable only by opcode 9" (10_state.md R23, 45_relbase_halt.md R98), over all steps. -/
def Obligations.OnlyArbChangesTheRelativeBase : Prop :=
  ∀ s t : State, step s = .next t → t.rb ≠ s.rb →
    ∃ m1 m2 m3, fetchDecode s = .ok (.arb m1 m2 m3) ∧ t.fault = none

/-- JT and JF are the only instructions that set `ip` to something other than `ip + width` (43_jumps.md R95): any other
decoded instruction leaves `ip` or advances it by its opcode's width. -/
def Obligations.OnlyJumpsLeaveTheInstructionSequence : Prop :=
  ∀ (s t : State) (i : Instr), step s = .next t → s.status ≠ .terminated → fetchDecode s = .ok i →
    i.opcode ≠ .jt → i.opcode ≠ .jf →
    t.ip = s.ip ∨ (i.opcode ≠ .halt ∧ t.status = .running ∧ advance Config.overflowMode s i.opcode.width = .ok t.ip)

/-- The queues are FIFO (10_state.md R25): a step leaves the input queue or removes its head under IN, and leaves the
output queue or appends one value at its tail under OUT. -/
def Obligations.QueuesAreFirstInFirstOut : Prop :=
  ∀ s t : State, step s = .next t →
    (t.inQ = s.inQ ∨ ∃ v m1 m2 m3, s.inQ = v :: t.inQ ∧ fetchDecode s = .ok (.inp m1 m2 m3)) ∧
    (t.outQ = s.outQ ∨ ∃ v m1 m2 m3, t.outQ = s.outQ ++ [v] ∧ fetchDecode s = .ok (.out m1 m2 m3))

/-- The status table of 10_state.md R27 (decisions D10 to D12): a raising step leaves the status, a Terminated instance
stays as it is, and any other step records what its instruction returns; no step goes back to Initial. -/
def Obligations.StatusFollowsTheTransitionTable : Prop :=
  ∀ s t : State, step s = .next t →
    (t.fault ≠ none → t.status = s.status ∧ s.status ≠ .terminated) ∧
    (s.status = .terminated → t = s) ∧
    (t.fault = none → s.status ≠ .terminated → ∃ i, fetchDecode s = .ok i ∧
      t.status = (if i.opcode = .halt then .terminated
        else if i.opcode = .inp ∧ s.inQ = [] then .waitingForInput else .running)) ∧
    (t.fault = none → t.status ≠ .initial)

/-- When the word at the instruction pointer of a live instance decodes to an instruction, the step is the execution of
that instruction, and nothing is added around it (40_controller.md R76 to R80). -/
def Obligations.StepRunsTheDecodedInstruction : Prop :=
  ∀ (s : State) (i : Instr), s.isLive → 0 ≤ s.ip.toInt → decode (s.mem.read s.ip.toNat) = .ok i → step s = exec i s

/-- `withFetchWord` places what `step` runs next, from every state (log entry 6). -/
def Obligations.PlacedWordIsRunNext : Prop :=
  ∀ (s : State) (nbits w : Nat) (i : Instr), decodeTableWord nbits w = some i →
    step (s.withFetchWord nbits w) = exec i (s.withFetchWord nbits w)

/-- A step of a Terminated instance changes nothing and returns Terminated, and so does a `run()` (40_controller.md R77,
R82; decision D12). -/
def Obligations.TerminatedIsAbsorbing : Prop :=
  ∀ s : State, s.isFinal → step s = .next s ∧ stepReply s = (.status .terminated, s) ∧
    ∀ n, runFor (n + 1) s = .returned .terminated s

/-- The invariant is kept by every step: memory stays in the model's own canonical form (log entry 5, a DESIGN CHOICE and
no rule of the spec), and a fault mark is a well-formed error (the values 60_exceptions.md R104 to R107 allow, and no
overflow error under Wrap) that reports the present `ip` in an instance that is not Terminated. Rests on decisions D8 and
D10. -/
def Obligations.EveryStepKeepsTheInvariant : Prop :=
  ∀ s t : State, s.Inv → step s = .next t → t.Inv

/-- The invariant holds at reset and in every newly built instance, whatever its program. Its canonical memory is the
model's own form (log entry 5, a DESIGN CHOICE), and so is taking the instance of the empty program for `State.reset`
(log entry 6, a DESIGN CHOICE). -/
def Obligations.InvariantHoldsAtConstruction : Prop :=
  State.reset.Inv ∧ ∀ program : List Cell, (State.new program).Inv

/-- A store is seen by the next fetch of its address, with no barrier, and a store over the instruction's own cells has no
effect on that instruction (20_memory.md R45, 70_reset_and_hazards.md R126): when an instruction that stores completes,
the value computed from the state before it is what a fetch at the address stored to gives next, every other address
fetches as before, and `ip` has advanced by the width of the opcode that was decoded. -/
def Obligations.StoresAreSeenByTheNextFetch : Prop :=
  ∀ (i : Instr) (s t : State) (d : Cell), s.fault = none → exec i s = .next t → t.fault = none →
    t.status = .running → storeAddress i s = some (.ok d) →
    ∃ v, storedValue i s = some v ∧ advance Config.overflowMode s i.opcode.width = .ok t.ip ∧
      ∀ u : State, u.mem = t.mem →
        (u.ip = d → fetch u = .ok v) ∧ (0 ≤ u.ip.toInt → u.ip ≠ d → fetch u = .ok (s.mem.read u.ip.toNat))

/-! ## Construction and the host -/

/-- `new(program)` (70_reset_and_hazards.md R120): every address below 2^63 reads the program's cell, or 0 past its end,
and every other component is at its reset value. Any program is accepted (decision D25). -/
def Obligations.NewLoadsTheProgram : Prop :=
  ∀ program : List Cell,
    (∀ a, a < 2 ^ 63 → (State.new program).mem.read a = if h : a < program.length then program[a] else 0) ∧
    (State.new program).ip = 0 ∧ (State.new program).rb = 0 ∧ (State.new program).inQ = [] ∧
    (State.new program).outQ = [] ∧ (State.new program).status = .initial ∧ (State.new program).fault = none

/-- `State.reset` is `new` of the empty program, which is the model's choice (log entry 6, a DESIGN CHOICE); and the empty
program's first step fetches 0 and raises `UnknownOpcode(0, 0)` (70_reset_and_hazards.md R121, which marks it as
derived). -/
def Obligations.FirstStepFromResetRaises : Prop :=
  State.reset = State.new [] ∧ step State.reset = .next { State.reset with fault := some (.unknownOpcode 0 0) }

/-- `push_input(v)` "appends `value` to the tail of the input queue. Always succeeds; observable effect is queue growth."
It changes nothing else (40_controller.md R71). -/
def Obligations.PushInputAppendsOneValue : Prop :=
  ∀ (s : State) (v : Cell), s.pushInput v = { s with inQ := s.inQ ++ [v] } ∧
    hostCall (.pushInput v) s = (.done, { s with inQ := s.inQ ++ [v] })

/-- `push_text_input(text)` appends each character's code point in order, and changes nothing else (40_controller.md R72;
a character is a Unicode scalar value by decision D21). -/
def Obligations.PushTextAppendsCodePoints : Prop :=
  ∀ (s : State) (text : List Char),
    ∃ cells : List Cell, s.pushTextInput text = { s with inQ := s.inQ ++ cells } ∧
      cells.map BitVec.toInt = text.map fun c => (c.toNat : Int)

/-- `pop_output()`, `drain_output()` and `get_state()` (40_controller.md R73 to R75): the head or none; the whole queue,
which is emptied; the recorded status. Nothing else changes. `none` is decision D22. -/
def Obligations.OutputCallsReadTheOutputQueue : Prop :=
  ∀ s : State,
    (s.outQ = [] → hostCall .popOutput s = (.value none, s)) ∧
    (∀ v rest, s.outQ = v :: rest → hostCall .popOutput s = (.value (some v), { s with outQ := rest })) ∧
    hostCall .drainOutput s = (.values s.outQ, { s with outQ := [] }) ∧
    hostCall .getState s = (.status s.status, s)

/-- The host has no operation that reads or writes `mem`, `ip` or `rb` (40_controller.md R84; decision D24): no call but
`step` changes them, the status or the fault mark, and the reply of such a call depends on the status and the output
queue alone. -/
def Obligations.HostCallsCannotReachTheMachine : Prop :=
  ∀ (c : HostCall) (s : State), c ≠ .step →
    ((hostCall c s).2.mem = s.mem ∧ (hostCall c s).2.ip = s.ip ∧ (hostCall c s).2.rb = s.rb ∧
      (hostCall c s).2.status = s.status ∧ (hostCall c s).2.fault = s.fault) ∧
    ∀ s' : State, s'.status = s.status → s'.outQ = s.outQ → (hostCall c s').1 = (hostCall c s).1

/-- "A step of one instance reads and writes only that instance's state" (10_state.md R18): a call on one instance gives
the reply and the state that the call on that instance alone gives, leaves every other instance as it is, and depends on
no other. Data moves between instances only when the host copies queue contents: feeding instance `i` to instance `j`
appends `i`'s outputs to `j`'s inputs, in order, and empties `i`'s output queue (40_controller.md R85), `i` and `j` the
same instance included; every other instance, and every other component of the two, is as before. What a number that
names no instance does is the model's own (log entry 17). -/
def Obligations.InstancesShareNothing : Prop :=
  (∀ (b : Bench) (n : Nat) (c : HostCall) (s : State), b[n]? = some s →
    callOn b n c = (some (hostCall c s).1, b.set n (hostCall c s).2)) ∧
  (∀ (b : Bench) (n j : Nat) (c : HostCall), j ≠ n → (callOn b n c).2[j]? = b[j]?) ∧
  (∀ (b b' : Bench) (n : Nat) (c : HostCall), b[n]? = b'[n]? →
    (callOn b n c).1 = (callOn b' n c).1 ∧ (callOn b n c).2[n]? = (callOn b' n c).2[n]?) ∧
  (∀ (b : Bench) (i j : Nat) (s t : State), i ≠ j → b[i]? = some s → b[j]? = some t →
    (feed b i j)[i]? = some { s with outQ := [] } ∧
    (feed b i j)[j]? = some { t with inQ := t.inQ ++ s.outQ }) ∧
  (∀ (b : Bench) (i : Nat) (s : State), b[i]? = some s →
    (feed b i i)[i]? = some { s with inQ := s.inQ ++ s.outQ, outQ := [] }) ∧
  (∀ (b : Bench) (i j k : Nat), k ≠ i → k ≠ j → (feed b i j)[k]? = b[k]?) ∧
  (∀ (b : Bench) (i j k : Nat) (s : State), b[k]? = some s →
    ∃ t, (feed b i j)[k]? = some t ∧ t.mem = s.mem ∧ t.ip = s.ip ∧ t.rb = s.rb ∧ t.status = s.status ∧
      t.fault = s.fault ∧ (k ≠ i → t.outQ = s.outQ) ∧ (k ≠ j → t.inQ = s.inQ))

/-! ## Runs -/

/-- `run()` "repeatedly calls `step()` until the returned State is anything other than `Running`; stores that
terminal/suspended state and returns control." (40_controller.md R82). A run that may still step makes one step: after a
step that returns Running it goes on as the run from the state that step leaves; after a step that returns another
status it returns that status and leaves that state; after a step that raises it fails with that error and leaves that
state. So it returns WaitingForInput or Terminated, recorded; it fails with a failing step's error, the instructions
before it applied; on a Terminated or a still starved instance it returns after one step that changes nothing; and a run
none of whose steps stops never returns. The number of steps, the unfinished run when it is used up, and that a larger
number changes no result, are the model's own (log entry 11, a DESIGN CHOICE). -/
def Obligations.RunRepeatsStepUntilNotRunning : Prop :=
  (∀ s : State, runFor 0 s = .unfinished s) ∧
  (∀ (s t : State) (n : Nat), step s = .next t → t.fault = none → t.status = .running →
    runFor (n + 1) s = runFor n t) ∧
  (∀ (s t : State) (n : Nat), step s = .next t → t.fault = none → t.status ≠ .running →
    runFor (n + 1) s = .returned t.status t) ∧
  (∀ (s t : State) (e : VmError) (n : Nat), step s = .next t → t.fault = some e → runFor (n + 1) s = .failed e t) ∧
  (∀ (s t : State) (st : Status), Returns s st t →
    (st = .waitingForInput ∨ st = .terminated) ∧ t.status = st ∧ t.fault = none) ∧
  (∀ (s t : State) (e : VmError), Fails s e t →
    ∃ n u, runFor n s = .unfinished u ∧ step u = .next t ∧ t = { u with fault := some e }) ∧
  (∀ (s : State) (n m : Nat), (∀ u, runFor n s ≠ .unfinished u) → runFor (n + m) s = runFor n s) ∧
  (∀ s : State, s.isFinal → runFor 1 s = .returned .terminated s) ∧
  (∀ s t : State, step s = .next t → t.isSuspended → runFor 1 t = .returned .waitingForInput t) ∧
  (∀ s : State, (∀ n u, runFor n s = .unfinished u → ∃ t, step u = .next t ∧ t.fault = none ∧ t.status = .running) →
    Hangs s)

/-- A run of an instance without a fault mark does exactly one of three things: it returns one status, it fails with one
error, or it never returns; a safe instance does not fail (40_controller.md R82, R87). A run that never returns is one
unfinished at every number of steps (log entry 11). -/
def Obligations.RunReturnsOrFailsOrHangs : Prop :=
  ∀ s : State, s.fault = none →
    ((∃ st t, Returns s st t) ∨ (∃ e t, Fails s e t) ∨ Hangs s) ∧
    (∀ st t st' t', Returns s st t → Returns s st' t' → st = st' ∧ t = t') ∧
    (∀ e t e' t', Fails s e t → Fails s e' t' → e = e' ∧ t = t') ∧
    (∀ st t e t', Returns s st t → ¬ Fails s e t') ∧
    (Hangs s → ∀ st t e t', ¬ Returns s st t ∧ ¬ Fails s e t') ∧
    (Safe s → (∃ st t, Returns s st t) ∨ Hangs s)

/-- Input pushed early does not change what is executed before it is needed: a step that does not suspend gives, with one
more value at the tail of the input queue, the same next state with that value at the tail (42_io.md R91,
40_controller.md R86). -/
def Obligations.EarlyInputCommutesWithSteps : Prop :=
  ∀ (s t : State) (v : Cell), step s = .next t → ¬ t.isSuspended → step (s.pushInput v) = .next (t.pushInput v)

/-- Suspend and resume: "calling `run()` on a VM that suspends on input, then pushing exactly one input value and calling
`run()` again, produces the same result as if that input had been available from the start" (40_controller.md R86, whose
idempotence is marked as derived): the same status and state, the same error and state, or a run that never returns,
which is one unfinished at every number of steps (log entry 11). -/
def Obligations.ResumedRunEqualsRunWithEarlyInput : Prop :=
  ∀ (s t : State) (v : Cell), Returns s .waitingForInput t →
    (∀ st u, Returns (t.pushInput v) st u ↔ Returns (s.pushInput v) st u) ∧
    (∀ e u, Fails (t.pushInput v) e u ↔ Fails (s.pushInput v) e u) ∧
    (Hangs (t.pushInput v) ↔ Hangs (s.pushInput v))

/-- `run_program_with_inputs` (40_controller.md R83; decision D23): the outputs of a run that Terminated, the error of one
that failed, `InputStarved` for one that suspended, started from `new(program)` with all inputs pushed. A run that never
returns is one unfinished at every number of steps (log entry 11). -/
def Obligations.OneShotRunGivesItsOutputs : Prop :=
  ∀ (program inputs : List Cell) (s : State), s = { State.new program with inQ := inputs } →
    (∀ t, Returns s .terminated t → ∃ n, runProgramWithInputs n program inputs = .outputs t.outQ) ∧
    (∀ t, Returns s .waitingForInput t → ∃ n, runProgramWithInputs n program inputs = .failed .inputStarved) ∧
    (∀ e t, Fails s e t → ∃ n, runProgramWithInputs n program inputs = .failed (.vm e)) ∧
    (Hangs s → ∀ n, runProgramWithInputs n program inputs = .unfinished)
end

