-- ==== Sys2Proof/Laws/Decode.lean ====
section
/-! SUPPORT. The small lemmas of the decoder: fields, mode digits, opcode numbers and the parts of an instruction. -/

namespace Sys2Proof

theorem Mode.digit_le (m : Mode) : m.digit ≤ 2 := by cases m <;> decide

/-- A mode is read back from its digit. -/
theorem Mode.ofField_digit (m : Mode) : Mode.ofField m.digit = some m := by cases m <;> rfl

/-- Only the digit of a mode reads as it. -/
theorem Mode.ofField_some {d : Nat} {m : Mode} (h : Mode.ofField d = some m) : d = m.digit := by
  unfold Mode.ofField at h
  split at h <;> cases h <;> rfl

/-- The field values that have no mode are those from 3 up. -/
theorem Mode.ofField_none {d : Nat} : Mode.ofField d = none ↔ 3 ≤ d := by
  match d with
  | 0 | 1 | 2 => simp [Mode.ofField]
  | n + 3 => simp [Mode.ofField]

theorem Opcode.ofNumber_number (op : Opcode) : Opcode.ofNumber op.number = some op := by cases op <;> rfl

/-- Only the number of an opcode reads as it. -/
theorem Opcode.ofNumber_some {n : Int} {op : Opcode} (h : Opcode.ofNumber n = some op) : n = op.number := by
  unfold Opcode.ofNumber at h
  repeat (split at h; · cases h; assumption)
  cases h

theorem Opcode.number_bounds (op : Opcode) : 1 ≤ op.number ∧ op.number ≤ 99 := by cases op <;> decide

@[simp] theorem Instr.ofParts_opcode (op : Opcode) (m1 m2 m3 : Mode) : (Instr.ofParts op m1 m2 m3).opcode = op := by
  cases op <;> rfl

@[simp] theorem Instr.ofParts_modes (op : Opcode) (m1 m2 m3 : Mode) :
    (Instr.ofParts op m1 m2 m3).modes = (m1, m2, m3) := by
  cases op <;> rfl

@[simp] theorem Instr.ofParts_parts (i : Instr) :
    Instr.ofParts i.opcode i.modes.1 i.modes.2.1 i.modes.2.2 = i := by
  cases i <;> rfl

/-- The decoder's check of the write target is well-formedness. -/
theorem immediateTarget_none_iff (op : Opcode) (m1 m2 m3 : Mode) :
    immediateTarget op m1 m2 m3 = none ↔ (Instr.ofParts op m1 m2 m3).wellFormed = true := by
  cases op <;> cases m1 <;> cases m2 <;> cases m3 <;> decide

/-- What a successful decoding says of each field. -/
theorem decode_ok {w : Cell} {i : Instr} (h : decode w = .ok i) :
    ∃ op m1 m2 m3, Opcode.ofNumber (opcodeField w) = some op ∧ Mode.ofField (modeField 1 w) = some m1 ∧
      Mode.ofField (modeField 2 w) = some m2 ∧ Mode.ofField (modeField 3 w) = some m3 ∧
      immediateTarget op m1 m2 m3 = none ∧ i = Instr.ofParts op m1 m2 m3 := by
  unfold decode decodeMode at h
  cases ho : Opcode.ofNumber (opcodeField w) with
  | none => simp [ho] at h
  | some op =>
    cases h1 : Mode.ofField (modeField 1 w) with
    | none => simp [ho, h1, Except.bind] at h
    | some m1 =>
      cases h2 : Mode.ofField (modeField 2 w) with
      | none => simp [ho, h1, h2, Except.bind] at h
      | some m2 =>
        cases h3 : Mode.ofField (modeField 3 w) with
        | none => simp [ho, h1, h2, h3, Except.bind] at h
        | some m3 =>
          cases ht : immediateTarget op m1 m2 m3 with
          | some k => simp [ho, h1, h2, h3, ht, Except.bind] at h
          | none =>
            simp only [ho, h1, h2, h3, ht, Except.bind, Except.ok.injEq] at h
            exact ⟨op, m1, m2, m3, rfl, rfl, rfl, rfl, ht, h.symm⟩

end Sys2Proof
end

