-- ==== Sys2Proof/Laws/Ops.lean ====
section
/-! SUPPORT. What each shared operation can do: checked arithmetic, ranges of cells, raising, fetching. -/

namespace Sys2Proof.Machine

theorem inInt64_iff (v : Int) : inInt64 v = true ↔ -9223372036854775808 ≤ v ∧ v ≤ 9223372036854775807 := by
  simp [inInt64]

/-- Every cell's value is in `Int64`. -/
theorem cell_inInt64 (a : Cell) : inInt64 a.toInt = true := by
  rw [inInt64_iff]
  have h1 := BitVec.le_toInt a
  have h2 := BitVec.toInt_lt (x := a)
  norm_num at h1 h2
  omega

/-- A value of `Int64` survives the trip through a cell. -/
theorem toInt_ofInt {v : Int} (h : inInt64 v = true) : (Cell.ofInt v).toInt = v := by
  rw [inInt64_iff] at h
  rw [BitVec.toInt_ofInt]
  refine Int.bmod_eq_of_le ?_ ?_ <;> norm_num <;> omega

/-- A small natural number survives the trip through a cell. -/
theorem toInt_ofNat {k : Nat} (h : k < 2 ^ 63) : (BitVec.ofNat 64 k).toInt = k := by
  rw [← BitVec.ofInt_natCast]
  exact toInt_ofInt ((inInt64_iff _).mpr (by omega))

/-- A non-negative cell is an address of the space [0, 2^63-1]. -/
theorem toNat_lt_of_nonneg {a : Cell} (h : ¬ a.toInt < 0) : a.toNat < 2 ^ 63 := by
  rw [BitVec.toInt_eq_toNat_cond] at h
  have := a.isLt
  split at h <;> omega

theorem toNat_of_nonneg {a : Cell} (h : ¬ a.toInt < 0) : (a.toNat : Int) = a.toInt := by
  have := toNat_lt_of_nonneg h
  rw [BitVec.toInt_eq_toNat_cond]
  split <;> omega

/-! ## Checked arithmetic -/

theorem narrow_of_inInt64 {v : Int} (ov : OverflowMode) (ip : Cell) (h : inInt64 v = true) :
    narrow ov ip v = .ok (Cell.ofInt v) := by
  simp [narrow, h]

/-- All a narrowing can do: the exact value in range, the overflow error, or the wrapped value. -/
theorem narrow_cases (ov : OverflowMode) (ip : Cell) (v : Int) :
    (inInt64 v = true ∧ narrow ov ip v = .ok (Cell.ofInt v)) ∨
    (inInt64 v = false ∧ ov = .fault ∧ narrow ov ip v = .error (.arithmeticOverflow ip)) ∨
    (inInt64 v = false ∧ ov = .wrap ∧ narrow ov ip v = .ok (wrap64 v)) := by
  cases h : inInt64 v
  · cases ov <;> simp [narrow, h]
  · simp [narrow, h]

/-- A narrowing fails only by overflow under the Fault mode. -/
theorem narrow_error {ov : OverflowMode} {ip : Cell} {v : Int} {e : VmError} (h : narrow ov ip v = .error e) :
    e = .arithmeticOverflow ip ∧ ov = .fault ∧ inInt64 v = false := by
  rcases narrow_cases ov ip v with ⟨_, h'⟩ | ⟨h1, h2, h'⟩ | ⟨_, _, h'⟩ <;> rw [h'] at h <;> simp_all

/-! ## Raising -/

@[simp] theorem orRaise_ok {α : Type} (s : State) (v : α) (go : α → Host.Outcome State Fault Refusal) :
    orRaise s (.ok v) go = go v := rfl

@[simp] theorem orRaise_error {α : Type} (s : State) (e : VmError) (go : α → Host.Outcome State Fault Refusal) :
    orRaise s (.error e) go = raise e s := rfl

/-- If a line that can raise answers a next state, it raised, or it went on with its value. -/
theorem orRaise_next {α : Type} {s t : State} {r : Except VmError α} {go : α → Host.Outcome State Fault Refusal}
    (h : orRaise s r go = .next t) :
    (∃ e, r = .error e ∧ t = { s with fault := some e }) ∨ ∃ v, r = .ok v ∧ go v = .next t := by
  cases r with
  | ok v => exact .inr ⟨v, rfl, h⟩
  | error e =>
    simp only [orRaise_error, raise, Host.Outcome.next.injEq] at h
    exact .inl ⟨e, rfl, h.symm⟩

/-- A computation that can raise, in two parts, succeeds when both do. -/
theorem bind_ok {α β : Type} {r : Except VmError α} {f : α → Except VmError β} {b : β} (h : r.bind f = .ok b) :
    ∃ a, r = .ok a ∧ f a = .ok b := by
  cases r with
  | ok a => exact ⟨a, rfl, h⟩
  | error e => exact absurd h (by simp [Except.bind])

/-- It fails when the first part does, or the second after it. -/
theorem bind_error {α β : Type} {r : Except VmError α} {f : α → Except VmError β} {e : VmError}
    (h : r.bind f = .error e) : r = .error e ∨ ∃ a, r = .ok a ∧ f a = .error e := by
  cases r with
  | ok a => exact .inr ⟨a, rfl, h⟩
  | error e' =>
    left
    simpa [Except.bind] using h

/-! ## Fetch -/

theorem fetch_of_nonneg {s : State} (h : ¬ s.ip.toInt < 0) : fetch s = .ok (s.read s.ip) := by
  simp [fetch, h]

/-- What a successful fetch and decode says. -/
theorem fetchDecode_ok {s : State} {i : Instr} (h : fetchDecode s = .ok i) :
    ¬ s.ip.toInt < 0 ∧ decode (s.read s.ip) = .ok i := by
  obtain ⟨w, hw, hd⟩ := bind_ok h
  by_cases hip : s.ip.toInt < 0
  · simp [fetch, hip] at hw
  · rw [fetch_of_nonneg hip] at hw
    cases hw
    refine ⟨hip, ?_⟩
    cases hdec : decode (s.read s.ip) with
    | ok j => simpa [hdec] using hd
    | error e => simp [hdec] at hd

/-- What a failing one says. -/
theorem fetchDecode_error {s : State} {e : VmError} (h : fetchDecode s = .error e) :
    (s.ip.toInt < 0 ∧ e = .illegalMemoryAccess s.ip s.ip) ∨
    (¬ s.ip.toInt < 0 ∧ ∃ de, decode (s.read s.ip) = .error de ∧ e = decodeFault s.ip de) := by
  by_cases hip : s.ip.toInt < 0
  · refine .inl ⟨hip, ?_⟩
    simp [fetchDecode, fetch, hip, Except.bind] at h
    exact h.symm
  · refine .inr ⟨hip, ?_⟩
    rw [fetchDecode, fetch_of_nonneg hip] at h
    simp only [Except.bind] at h
    cases hdec : decode (s.read s.ip) with
    | ok j => simp [hdec] at h
    | error de =>
      simp only [hdec, Except.error.injEq] at h
      exact ⟨de, rfl, h.symm⟩

end Sys2Proof.Machine
end

