-- ==== Sys2Proof/Laws/Operands.lean ====
section
/-! SUPPORT. What operand resolution and the two shared instruction shapes can do. -/

namespace Sys2Proof.Machine

theorem checkAddress_ok {ip a b : Cell} (h : checkAddress ip a = .ok b) : b = a ∧ ¬ a.toInt < 0 := by
  unfold checkAddress at h
  split at h
  · cases h
  · exact ⟨(Except.ok.inj h).symm, ‹_›⟩

theorem checkAddress_error {ip a : Cell} {e : VmError} (h : checkAddress ip a = .error e) :
    e = .illegalMemoryAccess ip a ∧ a.toInt < 0 := by
  unfold checkAddress at h
  split at h
  · exact ⟨(Except.error.inj h).symm, ‹_›⟩
  · cases h

/-- A resolved parameter cell is never negative. -/
theorem parameterCell_nonneg {ov : OverflowMode} {s : State} {k : Nat} {p : Cell}
    (h : parameterCell ov s k = .ok p) : ¬ p.toInt < 0 := by
  obtain ⟨q, -, hq⟩ := bind_ok h
  obtain ⟨rfl, hn⟩ := checkAddress_ok hq
  exact hn

/-- A resolved address is never negative (R57). -/
theorem effectiveAddress_nonneg {ov : OverflowMode} {s : State} {k : Nat} {m : Mode} {a : Cell}
    (h : effectiveAddress ov s k m = .ok a) : ¬ a.toInt < 0 := by
  obtain ⟨p, hp, ha⟩ := bind_ok h
  cases m with
  | position =>
    obtain ⟨rfl, hn⟩ := checkAddress_ok ha
    exact hn
  | immediate =>
    cases ha
    exact parameterCell_nonneg hp
  | relative =>
    obtain ⟨q, -, hq⟩ := bind_ok ha
    obtain ⟨rfl, hn⟩ := checkAddress_ok hq
    exact hn

/-- An operand is the cell at its effective address (R62). -/
theorem operand_ok {ov : OverflowMode} {s : State} {k : Nat} {m : Mode} {v : Cell}
    (h : operand ov s k m = .ok v) : ∃ a, effectiveAddress ov s k m = .ok a ∧ v = s.read a := by
  obtain ⟨a, ha, hv⟩ := bind_ok h
  exact ⟨a, ha, (Except.ok.inj hv).symm⟩

/-- All an R R W instruction can do: raise, or write one cell and retire. -/
theorem threeOperand_next {ov : OverflowMode} {result : Cell → Cell → Except VmError Cell} {m1 m2 m3 : Mode}
    {s t : State} (h : threeOperand ov result m1 m2 m3 s = .next t) :
    (∃ e, t = { s with fault := some e }) ∨
    ∃ a b d nip v, operand ov s 1 m1 = .ok a ∧ operand ov s 2 m2 = .ok b ∧ writeTarget ov s 3 m3 = .ok d ∧
      advance ov s 4 = .ok nip ∧ result a b = .ok v ∧ t = (s.write d v).retire nip := by
  unfold threeOperand at h
  obtain ⟨e, -, rfl⟩ | ⟨_, -, h⟩ := orRaise_next h
  · exact .inl ⟨e, rfl⟩
  obtain ⟨e, -, rfl⟩ | ⟨a, ha, h⟩ := orRaise_next h
  · exact .inl ⟨e, rfl⟩
  obtain ⟨e, -, rfl⟩ | ⟨b, hb, h⟩ := orRaise_next h
  · exact .inl ⟨e, rfl⟩
  obtain ⟨e, -, rfl⟩ | ⟨d, hd, h⟩ := orRaise_next h
  · exact .inl ⟨e, rfl⟩
  obtain ⟨e, -, rfl⟩ | ⟨nip, hn, h⟩ := orRaise_next h
  · exact .inl ⟨e, rfl⟩
  obtain ⟨e, -, rfl⟩ | ⟨v, hv, h⟩ := orRaise_next h
  · exact .inl ⟨e, rfl⟩
  exact .inr ⟨a, b, d, nip, v, ha, hb, hd, hn, hv, (Host.Outcome.next.inj h).symm⟩

/-- All a conditional jump can do: raise, or retire at its target or past itself. -/
theorem jumpWhen_next {ov : OverflowMode} {taken : Cell → Bool} {m1 m2 : Mode} {s t : State}
    (h : jumpWhen ov taken m1 m2 s = .next t) :
    (∃ e, t = { s with fault := some e }) ∨
    ∃ c target nip, operand ov s 1 m1 = .ok c ∧ operand ov s 2 m2 = .ok target ∧
      (if taken c then .ok target else advance ov s 3) = .ok nip ∧ t = s.retire nip := by
  unfold jumpWhen at h
  obtain ⟨e, -, rfl⟩ | ⟨c, hc, h⟩ := orRaise_next h
  · exact .inl ⟨e, rfl⟩
  obtain ⟨e, -, rfl⟩ | ⟨target, ht, h⟩ := orRaise_next h
  · exact .inl ⟨e, rfl⟩
  obtain ⟨e, -, rfl⟩ | ⟨nip, hn, h⟩ := orRaise_next h
  · exact .inl ⟨e, rfl⟩
  exact .inr ⟨c, target, nip, hc, ht, hn, (Host.Outcome.next.inj h).symm⟩

end Sys2Proof.Machine
end

