-- ==== Sys2Proof/Laws/State.lean ====
section
/-! SUPPORT. One lemma per field per update of the state, each true by definition. -/

namespace Sys2Proof.Machine

variable (s : State)

@[simp] theorem State.write_mem (a v : Cell) : (s.write a v).mem = s.mem.write a.toNat v := rfl
@[simp] theorem State.write_ip (a v : Cell) : (s.write a v).ip = s.ip := rfl
@[simp] theorem State.write_rb (a v : Cell) : (s.write a v).rb = s.rb := rfl
@[simp] theorem State.write_inQ (a v : Cell) : (s.write a v).inQ = s.inQ := rfl
@[simp] theorem State.write_outQ (a v : Cell) : (s.write a v).outQ = s.outQ := rfl
@[simp] theorem State.write_status (a v : Cell) : (s.write a v).status = s.status := rfl
@[simp] theorem State.write_fault (a v : Cell) : (s.write a v).fault = s.fault := rfl

@[simp] theorem State.retire_mem (nip : Cell) : (s.retire nip).mem = s.mem := rfl
@[simp] theorem State.retire_ip (nip : Cell) : (s.retire nip).ip = nip := rfl
@[simp] theorem State.retire_rb (nip : Cell) : (s.retire nip).rb = s.rb := rfl
@[simp] theorem State.retire_inQ (nip : Cell) : (s.retire nip).inQ = s.inQ := rfl
@[simp] theorem State.retire_outQ (nip : Cell) : (s.retire nip).outQ = s.outQ := rfl
@[simp] theorem State.retire_status (nip : Cell) : (s.retire nip).status = .running := rfl
@[simp] theorem State.retire_fault (nip : Cell) : (s.retire nip).fault = s.fault := rfl

@[simp] theorem State.pushOutput_mem (v : Cell) : (s.pushOutput v).mem = s.mem := rfl
@[simp] theorem State.pushOutput_ip (v : Cell) : (s.pushOutput v).ip = s.ip := rfl
@[simp] theorem State.pushOutput_rb (v : Cell) : (s.pushOutput v).rb = s.rb := rfl
@[simp] theorem State.pushOutput_inQ (v : Cell) : (s.pushOutput v).inQ = s.inQ := rfl
@[simp] theorem State.pushOutput_outQ (v : Cell) : (s.pushOutput v).outQ = s.outQ ++ [v] := rfl
@[simp] theorem State.pushOutput_status (v : Cell) : (s.pushOutput v).status = s.status := rfl
@[simp] theorem State.pushOutput_fault (v : Cell) : (s.pushOutput v).fault = s.fault := rfl

@[simp] theorem State.pushInput_mem (v : Cell) : (s.pushInput v).mem = s.mem := rfl
@[simp] theorem State.pushInput_ip (v : Cell) : (s.pushInput v).ip = s.ip := rfl
@[simp] theorem State.pushInput_rb (v : Cell) : (s.pushInput v).rb = s.rb := rfl
@[simp] theorem State.pushInput_inQ (v : Cell) : (s.pushInput v).inQ = s.inQ ++ [v] := rfl
@[simp] theorem State.pushInput_outQ (v : Cell) : (s.pushInput v).outQ = s.outQ := rfl
@[simp] theorem State.pushInput_status (v : Cell) : (s.pushInput v).status = s.status := rfl
@[simp] theorem State.pushInput_fault (v : Cell) : (s.pushInput v).fault = s.fault := rfl

@[simp] theorem State.fetchReady_mem : s.fetchReady.mem = s.mem := rfl
@[simp] theorem State.fetchReady_ip : s.fetchReady.ip = if s.ip.toInt < 0 then 0 else s.ip := rfl
@[simp] theorem State.fetchReady_rb : s.fetchReady.rb = s.rb := rfl
@[simp] theorem State.fetchReady_inQ : s.fetchReady.inQ = s.inQ := rfl
@[simp] theorem State.fetchReady_outQ : s.fetchReady.outQ = s.outQ := rfl
@[simp] theorem State.fetchReady_status : s.fetchReady.status = if s.status = .terminated then .running else s.status := rfl
@[simp] theorem State.fetchReady_fault : s.fetchReady.fault = none := rfl

theorem State.drainOutput_fst : s.drainOutput.1 = s.outQ := rfl

theorem State.drainOutput_snd : s.drainOutput.2 = { s with outQ := [] } := rfl

theorem State.read_eq (a : Cell) : s.read a = s.mem.read a.toNat := rfl

theorem State.new_mem (p : List Cell) : (State.new p).mem = Memory.load [] 0 p := rfl

/-- Pushing several values appends them all. -/
theorem State.pushInputs_eq (vs : List Cell) : s.pushInputs vs = { s with inQ := s.inQ ++ vs } := by
  induction vs generalizing s with
  | nil => simp [State.pushInputs]
  | cons v vs ih =>
    have h := ih (s.pushInput v)
    simp only [State.pushInputs, List.foldl_cons] at h ⊢
    rw [h]
    simp [State.pushInput]

end Sys2Proof.Machine
end

