-- ==== Sys2Proof/Laws/Exec.lean ====
section
/-! SUPPORT. What executing an instruction and taking a step can do, said once: every proof about a step starts here. -/

namespace Sys2Proof.Machine

/-- The ways an executed instruction changes the state. -/
inductive ExecEffect (s : State) : State → Prop where
  /-- it raised: only the fault mark changes (60_exceptions.md R101) -/
  | raised (e : VmError) : ExecEffect s { s with fault := some e }
  /-- it wrote one cell and retired -/
  | stored (d v nip : Cell) (hd : ¬ d.toInt < 0) : ExecEffect s ((s.write d v).retire nip)
  /-- it moved the head of the input queue to a cell and retired -/
  | consumed (d v nip : Cell) (rest : List Cell) (hq : s.inQ = v :: rest) (hd : ¬ d.toInt < 0) :
      ExecEffect s ((({ s with inQ := rest } : State).write d v).retire nip)
  /-- it found the input queue empty -/
  | suspended (hq : s.inQ = []) : ExecEffect s { s with status := .waitingForInput }
  /-- it appended an output and retired -/
  | emitted (v nip : Cell) : ExecEffect s ((s.pushOutput v).retire nip)
  /-- it retired, changing only the instruction pointer -/
  | jumped (nip : Cell) : ExecEffect s (s.retire nip)
  /-- it changed the relative base and retired -/
  | rebased (nrb nip : Cell) : ExecEffect s (({ s with rb := nrb } : State).retire nip)
  /-- it halted -/
  | halted : ExecEffect s { s with status := .terminated }

theorem threeOperand_effect {ov : OverflowMode} {result : Cell → Cell → Except VmError Cell} {m1 m2 m3 : Mode}
    {s t : State} (h : threeOperand ov result m1 m2 m3 s = .next t) : ExecEffect s t := by
  obtain ⟨e, rfl⟩ | ⟨_, _, d, nip, v, -, -, hd, -, -, rfl⟩ := threeOperand_next h
  · exact .raised e
  · exact .stored d v nip (effectiveAddress_nonneg hd)

theorem jumpWhen_effect {ov : OverflowMode} {taken : Cell → Bool} {m1 m2 : Mode} {s t : State}
    (h : jumpWhen ov taken m1 m2 s = .next t) : ExecEffect s t := by
  obtain ⟨e, rfl⟩ | ⟨_, _, nip, -, -, -, rfl⟩ := jumpWhen_next h
  · exact .raised e
  · exact .jumped nip

/-- All IN can do. -/
theorem inUnder_next {ov : OverflowMode} {m1 : Mode} {s t : State} (h : inUnder ov m1 s = .next t) :
    (∃ e, t = { s with fault := some e }) ∨
    ∃ d nip, writeTarget ov s 1 m1 = .ok d ∧ advance ov s 2 = .ok nip ∧
      ((s.inQ = [] ∧ t = { s with status := .waitingForInput }) ∨
       ∃ v rest, s.inQ = v :: rest ∧ t = (({ s with inQ := rest } : State).write d v).retire nip) := by
  unfold inUnder at h
  obtain ⟨e, -, rfl⟩ | ⟨_, -, h⟩ := orRaise_next h
  · exact .inl ⟨e, rfl⟩
  obtain ⟨e, -, rfl⟩ | ⟨d, hd, h⟩ := orRaise_next h
  · exact .inl ⟨e, rfl⟩
  obtain ⟨e, -, rfl⟩ | ⟨nip, hn, h⟩ := orRaise_next h
  · exact .inl ⟨e, rfl⟩
  refine .inr ⟨d, nip, hd, hn, ?_⟩
  cases hq : s.inQ with
  | nil =>
    rw [hq] at h
    exact .inl ⟨rfl, (Host.Outcome.next.inj h).symm⟩
  | cons v rest =>
    rw [hq] at h
    exact .inr ⟨v, rest, rfl, (Host.Outcome.next.inj h).symm⟩

/-- All OUT can do. -/
theorem outUnder_next {ov : OverflowMode} {m1 : Mode} {s t : State} (h : outUnder ov m1 s = .next t) :
    (∃ e, t = { s with fault := some e }) ∨
    ∃ v nip, operand ov s 1 m1 = .ok v ∧ advance ov s 2 = .ok nip ∧ t = (s.pushOutput v).retire nip := by
  unfold outUnder at h
  obtain ⟨e, -, rfl⟩ | ⟨v, hv, h⟩ := orRaise_next h
  · exact .inl ⟨e, rfl⟩
  obtain ⟨e, -, rfl⟩ | ⟨nip, hn, h⟩ := orRaise_next h
  · exact .inl ⟨e, rfl⟩
  exact .inr ⟨v, nip, hv, hn, (Host.Outcome.next.inj h).symm⟩

/-- All ARB can do. -/
theorem arbUnder_next {ov : OverflowMode} {m1 : Mode} {s t : State} (h : arbUnder ov m1 s = .next t) :
    (∃ e, t = { s with fault := some e }) ∨
    ∃ v nip nrb, operand ov s 1 m1 = .ok v ∧ advance ov s 2 = .ok nip ∧ add64 ov s.ip s.rb v = .ok nrb ∧
      t = ({ s with rb := nrb } : State).retire nip := by
  unfold arbUnder at h
  obtain ⟨e, -, rfl⟩ | ⟨v, hv, h⟩ := orRaise_next h
  · exact .inl ⟨e, rfl⟩
  obtain ⟨e, -, rfl⟩ | ⟨nip, hn, h⟩ := orRaise_next h
  · exact .inl ⟨e, rfl⟩
  obtain ⟨e, -, rfl⟩ | ⟨nrb, hr, h⟩ := orRaise_next h
  · exact .inl ⟨e, rfl⟩
  exact .inr ⟨v, nip, nrb, hv, hn, hr, (Host.Outcome.next.inj h).symm⟩

/-- The effect of any instruction that answers a next state. -/
theorem exec_effect {i : Instr} {s t : State} (h : exec i s = .next t) : ExecEffect s t := by
  cases i with
  | add => exact threeOperand_effect h
  | mul => exact threeOperand_effect h
  | lt => exact threeOperand_effect h
  | eq => exact threeOperand_effect h
  | jt => exact jumpWhen_effect h
  | jf => exact jumpWhen_effect h
  | inp =>
    obtain ⟨e, rfl⟩ | ⟨d, nip, hd, -, ⟨hq, rfl⟩ | ⟨v, rest, hq, rfl⟩⟩ := inUnder_next h
    · exact .raised e
    · exact .suspended hq
    · exact .consumed d v nip rest hq (effectiveAddress_nonneg hd)
  | out =>
    obtain ⟨e, rfl⟩ | ⟨v, nip, -, -, rfl⟩ := outUnder_next h
    · exact .raised e
    · exact .emitted v nip
  | arb =>
    obtain ⟨e, rfl⟩ | ⟨_, nip, nrb, -, -, -, rfl⟩ := arbUnder_next h
    · exact .raised e
    · exact .rebased nrb nip
  | halt =>
    cases Host.Outcome.next.inj h
    exact .halted

/-- All a step that answers a next state can do: nothing in a Terminated instance, an error of fetch or decode, or the
execution of the decoded instruction (40_controller.md R77 to R80). -/
theorem step_next {s t : State} (h : step s = .next t) :
    s.fault = none ∧
    ((s.status = .terminated ∧ t = s) ∨
     (s.status ≠ .terminated ∧ ∃ e, fetchDecode s = .error e ∧ t = { s with fault := some e }) ∨
     (s.status ≠ .terminated ∧ ∃ i, fetchDecode s = .ok i ∧ exec i s = .next t)) := by
  unfold step at h
  cases hf : s.fault with
  | some e => simp [hf] at h
  | none =>
    refine ⟨rfl, ?_⟩
    simp only [hf] at h
    split at h
    · exact .inl ⟨‹_›, (Host.Outcome.next.inj h).symm⟩
    · rename_i hst
      obtain ⟨e, he, rfl⟩ | ⟨i, hi, h⟩ := orRaise_next h
      · exact .inr (.inl ⟨hst, e, he, rfl⟩)
      · exact .inr (.inr ⟨hst, i, hi, h⟩)

/-- A step of a Terminated instance changes nothing (R77). -/
theorem step_of_terminated {s : State} (hf : s.fault = none) (ht : s.status = .terminated) : step s = .next s := by
  simp [step, hf, ht]

/-- A step of a live instance fetches, decodes and executes (R77). -/
theorem step_of_live {s : State} (hf : s.fault = none) (ht : s.status ≠ .terminated) :
    step s = orRaise s (fetchDecode s) fun i => exec i s := by
  simp [step, hf, ht]

end Sys2Proof.Machine
end

