-- ==== Sys2Proof/Laws/Memory.lean ====
section
/-! SUPPORT. The laws of memory: read after write, the frame of a write, the canonical form, and a loaded program. -/

namespace Sys2Proof.Machine

@[simp] theorem Memory.read_nil (a : Nat) : Memory.read [] a = untouched := rfl

theorem Memory.read_cons (b : Nat) (w : Cell) (m : Memory) (a : Nat) :
    Memory.read ((b, w) :: m) a = if a = b then w else Memory.read m a := rfl

theorem Memory.read_put_same (m : Memory) (a : Nat) (v : Cell) : Memory.read (Memory.put m a v) a = v := by
  induction m with
  | nil => simp [Memory.put, Memory.read_cons]
  | cons c m ih =>
    obtain ⟨b, w⟩ := c
    simp only [Memory.put]
    split
    · simp [Memory.read_cons]
    · split
      · simp [Memory.read_cons]
      · simp [Memory.read_cons, *]

theorem Memory.read_put_other (m : Memory) {a b : Nat} (v : Cell) (h : b ≠ a) :
    Memory.read (Memory.put m a v) b = Memory.read m b := by
  induction m with
  | nil => simp [Memory.put, Memory.read_cons, h]
  | cons c m ih =>
    obtain ⟨k, w⟩ := c
    simp only [Memory.put]
    split
    · simp [Memory.read_cons, h]
    · split
      · subst_vars
        simp [Memory.read_cons, h]
      · simp [Memory.read_cons, ih]

theorem Memory.read_delist_same (m : Memory) (a : Nat) :
    Memory.read (m.filter fun c => c.1 ≠ a) a = untouched := by
  induction m with
  | nil => rfl
  | cons c m ih =>
    obtain ⟨k, w⟩ := c
    by_cases hk : k = a
    · simpa [List.filter_cons, hk] using ih
    · simpa [List.filter_cons, hk, Memory.read_cons, Ne.symm hk] using ih

theorem Memory.read_delist_other (m : Memory) {a b : Nat} (h : b ≠ a) :
    Memory.read (m.filter fun c => c.1 ≠ a) b = Memory.read m b := by
  induction m with
  | nil => rfl
  | cons c m ih =>
    obtain ⟨k, w⟩ := c
    by_cases hk : k = a
    · subst hk
      simpa [List.filter_cons, Memory.read_cons, h] using ih
    · simp only [List.filter_cons, Memory.read_cons, ne_eq, hk, not_false_eq_true, decide_true, if_true]
      simp only [ne_eq] at ih
      rw [ih]

/-- A read after a write to the same address gives the value written, whatever the list (R34). -/
theorem Memory.read_write_same (m : Memory) (a : Nat) (v : Cell) : (Memory.write m a v).read a = v := by
  unfold Memory.write
  split
  · rw [Memory.read_delist_same]
    exact (‹v = untouched›).symm
  · exact Memory.read_put_same m a v

/-- A write leaves every other address alone, whatever the list (R34). -/
theorem Memory.read_write_other (m : Memory) {a b : Nat} (v : Cell) (h : b ≠ a) :
    (Memory.write m a v).read b = m.read b := by
  unfold Memory.write
  split
  · exact Memory.read_delist_other m h
  · exact Memory.read_put_other m v h

/-- Both cases of a read after a write. -/
theorem Memory.read_write (m : Memory) (a b : Nat) (v : Cell) :
    (Memory.write m a v).read b = if b = a then v else m.read b := by
  split
  · subst_vars
    exact Memory.read_write_same m _ v
  · exact Memory.read_write_other m v ‹_›

theorem Memory.mem_put {m : Memory} {a : Nat} {v : Cell} {c : Nat × Cell} (h : c ∈ Memory.put m a v) :
    c = (a, v) ∨ c ∈ m := by
  induction m with
  | nil => simpa [Memory.put] using h
  | cons d m ih =>
    obtain ⟨k, w⟩ := d
    simp only [Memory.put] at h
    split at h
    · simpa using h
    · split at h
      · rcases List.mem_cons.mp h with h | h
        · exact .inl h
        · exact .inr (List.mem_cons_of_mem _ h)
      · rcases List.mem_cons.mp h with h | h
        · exact .inr (h ▸ List.mem_cons_self)
        · exact (ih h).imp id (List.mem_cons_of_mem _)

theorem Memory.put_rising {m : Memory} (a : Nat) (v : Cell) (h : m.Pairwise fun c d => c.1 < d.1) :
    (Memory.put m a v).Pairwise fun c d => c.1 < d.1 := by
  induction m with
  | nil => simp [Memory.put]
  | cons c m ih =>
    obtain ⟨k, w⟩ := c
    obtain ⟨hk, hm⟩ := List.pairwise_cons.mp h
    simp only [Memory.put]
    split
    · rename_i hak
      refine List.pairwise_cons.mpr ⟨fun d hd => ?_, h⟩
      rcases List.mem_cons.mp hd with rfl | hd
      · exact hak
      · exact hak.trans (hk d hd)
    · split
      · subst_vars
        exact List.pairwise_cons.mpr ⟨hk, hm⟩
      · refine List.pairwise_cons.mpr ⟨fun d hd => ?_, ih hm⟩
        rcases Memory.mem_put hd with rfl | hd
        · have : ¬ a < k := ‹_›
          have : ¬ a = k := ‹_›
          show k < a
          omega
        · exact hk d hd

/-- A write within the address space keeps the canonical form. -/
theorem Memory.write_wf {m : Memory} {a : Nat} (v : Cell) (hm : Memory.wf m) (ha : a < 2 ^ 63) :
    Memory.wf (Memory.write m a v) := by
  obtain ⟨hp, hc⟩ := hm
  unfold Memory.write
  split
  · exact ⟨hp.filter _, fun c h => hc c (List.mem_of_mem_filter h)⟩
  · refine ⟨Memory.put_rising a v hp, fun c h => ?_⟩
    rcases Memory.mem_put h with rfl | h
    · exact ⟨ha, ‹_›⟩
    · exact hc c h

/-- Loading a program keeps the canonical form. -/
theorem Memory.load_wf {m : Memory} (a : Nat) (p : List Cell) (hm : Memory.wf m) : Memory.wf (Memory.load m a p) := by
  induction p generalizing m a with
  | nil => exact hm
  | cons v p ih =>
    simp only [Memory.load]
    split
    · exact ih (a + 1) (Memory.write_wf v hm ‹_›)
    · exact hm

theorem Memory.nil_wf : Memory.wf [] := by simp [Memory.wf]

/-- Reset's memory has the canonical form. -/
theorem reset_mem_wf : Memory.wf State.reset.mem := Memory.nil_wf

/-- A newly built instance's memory has the canonical form, whatever the program. -/
theorem new_mem_wf (p : List Cell) : Memory.wf (State.new p).mem := Memory.load_wf 0 p Memory.nil_wf

/-- A load leaves alone every address below its start and every address past the program. -/
theorem Memory.read_load_outside {m : Memory} {a b : Nat} (p : List Cell) (h : b < a ∨ a + p.length ≤ b) :
    (Memory.load m a p).read b = m.read b := by
  induction p generalizing m a with
  | nil => rfl
  | cons v p ih =>
    simp only [Memory.load]
    split
    · simp only [List.length_cons] at h
      rw [ih (by omega), Memory.read_write_other _ _ (by omega)]
    · rfl

/-- A loaded cell reads as the program's, within the address space (R120). -/
theorem Memory.read_load_inside {m : Memory} {a k : Nat} (p : List Cell) (hk : k < p.length) (h : a + k < 2 ^ 63) :
    (Memory.load m a p).read (a + k) = p[k] := by
  induction p generalizing m a k with
  | nil => simp at hk
  | cons v p ih =>
    rw [Memory.load, if_pos (by omega)]
    cases k with
    | zero =>
      rw [Memory.read_load_outside p (by omega)]
      exact Memory.read_write_same _ _ _
    | succ k =>
      have := ih (m := m.write a v) (a := a + 1) (k := k) (by simpa using hk) (by omega)
      rw [show a + (k + 1) = a + 1 + k by omega, this]
      rfl

end Sys2Proof.Machine
end

