-- ==== Sys2Proof/Laws/PerInstr.lean ====
section
/-! SUPPORT. Statements about every instruction as syntax, one lemma per constructor. -/

/-- `EncodedWord`: the value of an instruction's word is `op + 100*m1 + 1000*m2 + 10000*m3`, which lies in 0..22299
(30_encoding.md R50). -/
def Sys2Proof.Laws.EncodedWord.Statement (i : Sys2Proof.Instr) : Prop :=
  (Sys2Proof.encode i).toInt =
      i.opcode.number + 100 * i.modes.1.digit + 1000 * i.modes.2.1.digit + 10000 * i.modes.2.2.digit ∧
    0 ≤ (Sys2Proof.encode i).toInt ∧ (Sys2Proof.encode i).toInt ≤ 22299

namespace Sys2Proof.Laws.EncodedWord

theorem add (m1 m2 m3 : Mode) : Statement (.add m1 m2 m3) := by
  unfold Statement; cases m1 <;> cases m2 <;> cases m3 <;> decide

theorem mul (m1 m2 m3 : Mode) : Statement (.mul m1 m2 m3) := by
  unfold Statement; cases m1 <;> cases m2 <;> cases m3 <;> decide

theorem inp (m1 m2 m3 : Mode) : Statement (.inp m1 m2 m3) := by
  unfold Statement; cases m1 <;> cases m2 <;> cases m3 <;> decide

theorem out (m1 m2 m3 : Mode) : Statement (.out m1 m2 m3) := by
  unfold Statement; cases m1 <;> cases m2 <;> cases m3 <;> decide

theorem jt (m1 m2 m3 : Mode) : Statement (.jt m1 m2 m3) := by
  unfold Statement; cases m1 <;> cases m2 <;> cases m3 <;> decide

theorem jf (m1 m2 m3 : Mode) : Statement (.jf m1 m2 m3) := by
  unfold Statement; cases m1 <;> cases m2 <;> cases m3 <;> decide

theorem lt (m1 m2 m3 : Mode) : Statement (.lt m1 m2 m3) := by
  unfold Statement; cases m1 <;> cases m2 <;> cases m3 <;> decide

theorem eq (m1 m2 m3 : Mode) : Statement (.eq m1 m2 m3) := by
  unfold Statement; cases m1 <;> cases m2 <;> cases m3 <;> decide

theorem arb (m1 m2 m3 : Mode) : Statement (.arb m1 m2 m3) := by
  unfold Statement; cases m1 <;> cases m2 <;> cases m3 <;> decide

theorem halt (m1 m2 m3 : Mode) : Statement (.halt m1 m2 m3) := by
  unfold Statement; cases m1 <;> cases m2 <;> cases m3 <;> decide

end Sys2Proof.Laws.EncodedWord
end

