-- ==== Sys2Proof/Tests/Slice0.lean ====
section
/-! SUPPORT. Tests with expected results from the spec (95_test_vectors.md and the examples of its rules), and for every
statement with hypotheses a named witness of them. `M` and `m` of the spec are 2^63-1 and -2^63. -/

namespace Sys2Proof.Tests

open Sys2Proof.Machine

/-- `new` of a program given as integers. -/
def prog (cells : List Int) : State := State.new (cells.map Cell.ofInt)

/-- The next state of an outcome. -/
def after : Host.Outcome State Fault Refusal → Option State
  | .next t => some t
  | .fault _ => none
  | .refused _ => none

/-- The overflow mode of the machine, which no proof can see. -/
abbrev ov : OverflowMode := Config.overflowMode

/-! ## Well-formedness: one ill-formed term for each check (30_encoding.md R56) -/

theorem test_illFormed_add : (Instr.add .position .position .immediate).wellFormed = false := by decide
theorem test_illFormed_mul : (Instr.mul .immediate .relative .immediate).wellFormed = false := by decide
theorem test_illFormed_inp : (Instr.inp .immediate .position .position).wellFormed = false := by decide
theorem test_illFormed_lt : (Instr.lt .position .position .immediate).wellFormed = false := by decide
theorem test_illFormed_eq : (Instr.eq .position .position .immediate).wellFormed = false := by decide
/-- An immediate mode of a parameter that is absent or only read is well formed (R66). -/
theorem test_wellFormed_inp_absent : (Instr.inp .position .immediate .immediate).wellFormed = true := by decide

/-! ## Decoding: every constructor by words written out digit by digit from 30_encoding.md R50 (m3 m2 m1 op op) -/

/-- 21101: m3 = 2, m2 = 1, m1 = 1, op = 01. -/
theorem test_decode_add : decode (Cell.ofInt 21101) = .ok (.add .immediate .immediate .relative) := by decide
/-- 1002: m3 = 0, m2 = 1, m1 = 0, op = 02 (R68's example). -/
theorem test_decode_mul : decode (Cell.ofInt 1002) = .ok (.mul .position .immediate .position) := by decide
/-- 203: m1 = 2, op = 03. -/
theorem test_decode_inp : decode (Cell.ofInt 203) = .ok (.inp .relative .position .position) := by decide
/-- 104: m1 = 1, op = 04. -/
theorem test_decode_out : decode (Cell.ofInt 104) = .ok (.out .immediate .position .position) := by decide
/-- 2105: m2 = 2, m1 = 1, op = 05 (R68's example). -/
theorem test_decode_jt : decode (Cell.ofInt 2105) = .ok (.jt .immediate .relative .position) := by decide
/-- 1006: m2 = 1, m1 = 0, op = 06. -/
theorem test_decode_jf : decode (Cell.ofInt 1006) = .ok (.jf .position .immediate .position) := by decide
/-- 20107: m3 = 2, m2 = 0, m1 = 1, op = 07. -/
theorem test_decode_lt : decode (Cell.ofInt 20107) = .ok (.lt .immediate .position .relative) := by decide
/-- 1208: m2 = 1, m1 = 2, op = 08. -/
theorem test_decode_eq : decode (Cell.ofInt 1208) = .ok (.eq .relative .immediate .position) := by decide
/-- 209: m1 = 2, op = 09. -/
theorem test_decode_arb : decode (Cell.ofInt 209) = .ok (.arb .relative .position .position) := by decide
/-- 10099: m3 = 1 of an absent parameter, op = 99 (R66). -/
theorem test_decode_halt : decode (Cell.ofInt 10099) = .ok (.halt .position .position .immediate) := by decide

/-- Vectors E1, E3 to E6: unknown opcodes, negative words by the truncated remainder. -/
theorem test_decode_unknown :
    [0, 98, -1, -99, -199].map (fun w => decode (Cell.ofInt w)) =
      [0, 98, -1, -99, -99].map (fun op => .error (.unknownOpcode op)) := by decide
/-- Vectors E7 to E12: the first invalid mode field, then the immediate target. -/
theorem test_decode_modes :
    [301, 399, 30099, 100001, 11101, 103].map (fun w => decode (Cell.ofInt w)) =
      [(1, 3), (1, 3), (3, 3), (3, 10), (3, 1), (1, 1)].map (fun p => .error (.invalidParameterMode p.1 p.2)) := by
  decide
/-- The table's row OUT at its match value 4, eight bits wide. -/
theorem test_tableWord_out : decodeTableWord 8 4 = some (.out .position .position .position) := by decide
/-- A table word is run by the first step after reset: OUT [0] outputs its own word, 4. -/
theorem test_fetchWord_out :
    (after (step (State.reset.withFetchWord 8 4))).map (fun t => (t.outQ, t.ip)) = some ([4], 2) := by decide

/-! ## Instructions: one step on the spec's vectors -/

/-- Vector A7: `ADD #100, #-1, [4]`. -/
theorem test_add_A7 : (after (step (prog [1101, 100, -1, 4, 0]))).map (fun t => (t.mem.read 4, t.ip)) =
    some (Cell.ofInt 99, 4) := by decide
/-- Vector A11 under both modes: (2^63-1) + 1. -/
theorem test_add_A11 :
    after (addUnder .fault .immediate .immediate .position (prog [1101, 9223372036854775807, 1, 5, 99, 0])) =
        some { prog [1101, 9223372036854775807, 1, 5, 99, 0] with fault := some (.arithmeticOverflow 0) } ∧
      (after (addUnder .wrap .immediate .immediate .position (prog [1101, 9223372036854775807, 1, 5, 99, 0]))).map
        (fun t => t.mem.read 5) = some (Cell.ofInt (-9223372036854775808)) := by decide
/-- Vector A6: `MUL [4], #3, [4]` with 33 in cell 4. -/
theorem test_mul_A6 : (after (step (prog [1002, 4, 3, 4, 33]))).map (fun t => (t.mem.read 4, t.ip)) =
    some (Cell.ofInt 99, 4) := by decide
/-- Vectors A12 and A13 under Wrap: 2^32 * 2^32 and -2^63 * -1. -/
theorem test_mul_A12_A13 :
    (after (mulUnder .wrap .immediate .immediate .position (prog [1102, 4294967296, 4294967296, 5, 99, 0]))).map
        (fun t => t.mem.read 5) = some 0 ∧
      (after (mulUnder .wrap .immediate .immediate .position (prog [1102, -9223372036854775808, -1, 5, 99, 0]))).map
        (fun t => t.mem.read 5) = some (Cell.ofInt (-9223372036854775808)) := by decide
/-- Vector I1's first step: IN [0] overwrites its own word with 42. -/
theorem test_inp_I1 : (after (step ((prog [3, 0, 4, 0, 99]).pushInput 42))).map
    (fun t => (t.mem.read 0, t.ip, t.inQ)) = some (42, 2, []) := by decide
/-- Vectors I5 and I6: an empty queue suspends, and a bad destination faults before the queue is tested. -/
theorem test_inp_I5_I6 :
    after (step (prog [3, 0, 99])) = some { prog [3, 0, 99] with status := .waitingForInput } ∧
      after (step (prog [3, -1, 99])) =
        some { prog [3, -1, 99] with fault := some (.illegalMemoryAccess 0 (Cell.ofInt (-1))) } := by decide
/-- Vector I3: a large immediate. -/
theorem test_out_I3 : (after (step (prog [104, 1125899906842624, 99]))).map (fun t => (t.outQ, t.ip)) =
    some ([Cell.ofInt 1125899906842624], 2) := by decide
/-- Vector I4: an untouched cell reads 0. -/
theorem test_out_I4 : (after (step (prog [4, 500, 99]))).map (fun t => t.outQ) = some [0] := by decide
/-- Vectors J1, J2 and J5: a negative condition is true, zero falls through, a negative target is loaded. -/
theorem test_jt_J1_J2_J5 :
    [prog [1105, -1, 7], prog [1105, 0, 7], prog [1105, 1, -1]].map (fun s => (after (step s)).map (fun t => t.ip)) =
      [some 7, some 3, some (Cell.ofInt (-1))] := by decide
/-- Vector J6: the target is resolved although the jump is not taken. -/
theorem test_jt_J6 : (after (step (prog [105, 0, -1, 99]))).map (fun t => t.fault) =
    some (some (.illegalMemoryAccess 0 (Cell.ofInt (-1)))) := by decide
/-- Vectors J3 and J4. -/
theorem test_jf_J3_J4 :
    [prog [1106, 0, 7], prog [1106, 1, 7]].map (fun s => (after (step s)).map (fun t => t.ip)) =
      [some 7, some 3] := by decide
/-- Vectors C1 to C4: signed, strict. -/
theorem test_lt_C1_C4 :
    [prog [1107, -5, 3, 5, 99, 0], prog [1107, 3, 3, 5, 99, 0],
      prog [1107, -9223372036854775808, 9223372036854775807, 5, 99, 0],
      prog [1107, 9223372036854775807, -9223372036854775808, 5, 99, 0]].map
        (fun s => (after (step s)).map (fun t => t.mem.read 5)) = [some 1, some 0, some 1, some 0] := by decide
/-- Vectors C5 to C7: equality, and the old 7 overwritten. -/
theorem test_eq_C5_C7 :
    [prog [1108, -1, -1, 5, 99, 0], prog [1108, 0, 0, 5, 99, 7], prog [1108, 3, 4, 5, 99, 7]].map
        (fun s => (after (step s)).map (fun t => t.mem.read 5)) = [some 1, some 1, some 0] := by decide
/-- Vectors B1 and B7: a negative base is no error, and an overflowing one follows the mode. -/
theorem test_arb_B1_B7 :
    (after (step (prog [109, -5, 204, 10, 99, 42]))).map (fun t => (t.rb, t.ip)) = some (Cell.ofInt (-5), 2) ∧
      (after (arbUnder .wrap .immediate { prog [109, 1] with rb := Cell.ofInt 9223372036854775807 })).map
        (fun t => t.rb) = some (Cell.ofInt (-9223372036854775808)) := by decide
/-- Vector B4: base -5, offset 4. -/
theorem test_relative_B4 :
    (after (step { prog [109, -5, 204, 4, 99] with ip := 2, rb := Cell.ofInt (-5) })).map (fun t => t.fault) =
      some (some (.illegalMemoryAccess 2 (Cell.ofInt (-1)))) := by decide
/-- Vector H1, and the absorbing step after it. -/
theorem test_halt_H1 : after (step (prog [99])) = some { prog [99] with status := .terminated } ∧
    after (step { prog [99] with status := .terminated }) = some { prog [99] with status := .terminated } := by decide
/-- R127's example: operands are read before the write. -/
theorem test_overlap_R127 : (after (step (prog [1, 0, 0, 0, 99]))).map (fun t => (t.mem.read 0, t.ip)) =
    some (2, 4) := by decide

/-! ## The host's operations, pages and assembly -/

/-- Vector H6: `push_text_input("Hi\n")`. -/
theorem test_text_H6 : (State.reset.pushTextInput ['H', 'i', '\n']).inQ = [72, 105, 10] := by decide
/-- Vector H4's two pops. -/
theorem test_pop_H4 : (hostCall .popOutput { State.reset with outQ := [5] }).1 = .value (some 5) ∧
    (hostCall .popOutput State.reset).1 = .value none := by decide
/-- Vectors H7 to H9. -/
theorem test_oneShot_H7_H9 :
    runProgramWithInputs 3 [3, 0, 4, 0, 99] [42] = .outputs [42] ∧
      runProgramWithInputs 2 [3, 0, 3, 1, 99] [1] = .failed .inputStarved ∧
      runProgramWithInputs 1 [0] [] = .failed (.vm (.unknownOpcode 0 0)) := by decide
/-- R109: no output is the caller's error. -/
theorem test_missingOutput : State.reset.expectOutput = .error .missingOutput := by decide
/-- R68's examples. -/
theorem test_assemble_R68 :
    (AsmLine.mul (.position 4) (.immediate 3) (.position 4)).assemble = [1002, 4, 3, 4] ∧
      (AsmLine.jt (.immediate 1) (.relative (Cell.ofInt (-3)))).assemble = [2105, 1, Cell.ofInt (-3)] := by decide
/-- R35: address 10000 with pages of 64 cells. -/
theorem test_pages : PagedStore.read 64 (PagedStore.write 64 [] 10000 12) 10000 = 12 ∧
    PagedStore.read 64 (PagedStore.write 64 [] 10000 12) 10001 = 0 := by decide

/-! ## Witnesses of the hypotheses of the statements -/

theorem witness_DecodeAndEncodeAgree : decode (Cell.ofInt 22201) = .ok (.add .relative .relative .relative) ∧
    (Instr.add .relative .relative .relative).wellFormed = true ∧
    encode (.add .relative .relative .relative) = Cell.ofInt 22201 := by decide

/-- One word for each clause, at the boundary of its field. -/
theorem witness_DecodeRefusesAtTheFirstInvalidField :
    ((10 : Int) = (Cell.ofInt 10).toInt.tmod 100 ∧ (10 : Int) ∉ [1, 2, 3, 4, 5, 6, 7, 8, 9, 99]) ∧
    (3 : Int) = (Cell.ofInt 301).toInt / 100 % 10 ∧ (3 : Int) = (Cell.ofInt 3201).toInt / 1000 % 10 ∧
    (3 : Int) = (Cell.ofInt 32201).toInt / 10000 ∧ (1 : Int) = (Cell.ofInt 12208).toInt / 10000 ∧
    (1 : Int) = (Cell.ofInt 22103).toInt / 100 % 10 ∧ (22299 : Int) = (Cell.ofInt 22299).toInt := by decide

theorem witness_NegativeWordsAreUnknownOpcodes : (Cell.ofInt (-9223372036854775808)).toInt < 0 ∧
    (Cell.ofInt (-1)).toInt < 0 := by decide

theorem witness_AssembledLinesPrintBack :
    (∀ v, AsmLine.jt (.immediate 1) (.relative 7) ≠ .cell v) ∧
    (AsmLine.jt (.immediate 1) (.relative 7)).assemble = [2105, 1, 7] ∧
    decode 2105 = .ok (.jt .immediate .relative .position) :=
  ⟨(by intro v h; cases h), by decide, by decide⟩

theorem witness_WriteIsReadBackUntilTheNextWrite :
    (∀ c ∈ [((4 : Nat), (7 : Cell)), (6, 0)], c.1 ≠ 5) ∧ (4 : Nat) ≠ 5 ∧ ([1, 2, 3] : List Cell).length ≤ 10000 := by
  decide

theorem witness_ReadGivesLastWriteElseLoadedElseZero : 9223372036854775807 < 2 ^ 63 ∧
    fetch (prog [99]) = .ok 99 ∧ effectiveAddress .wrap (prog [4, 500]) 1 .position = .ok 500 := by decide

theorem witness_CanonicalMemoriesThatReadAlikeAreEqual :
    Memory.wf [(3, 5), (9223372036854775807, 1)] ∧ ∀ a, Memory.read [(3, 5)] a = Memory.read [(3, 5)] a :=
  ⟨by decide, fun _ => rfl⟩

theorem witness_PagedStoreReadsAsFlatMemory : 0 < 1 ∧ 0 < 4096 := by decide

/-- The last value in range and the first out of it, at both ends, for the sum and the product. -/
theorem witness_CheckedArithmeticFollowsTheOverflowMode :
    (9223372036854775807 : Int) = (Cell.ofInt 9223372036854775806).toInt + (Cell.ofInt 1).toInt ∧
    (9223372036854775808 : Int) = (Cell.ofInt 9223372036854775807).toInt + (Cell.ofInt 1).toInt ∧
    (-9223372036854775808 : Int) = (Cell.ofInt (-9223372036854775808)).toInt * (Cell.ofInt 1).toInt ∧
    (9223372036854775808 : Int) = (Cell.ofInt (-9223372036854775808)).toInt * (Cell.ofInt (-1)).toInt := by decide

/-- An instance at an address, with a program's memory. -/
def progAt (ip rb : Int) (cells : List Int) : State := { prog cells with ip := Cell.ofInt ip, rb := Cell.ofInt rb }

theorem witness_AdvanceAddsTheWidth : 0 ≤ (progAt 9223372036854775803 0 []).ip.toInt ∧
    (progAt 9223372036854775803 0 []).ip.toInt + 4 < 2 ^ 63 ∧
    ¬ (progAt 9223372036854775804 0 []).ip.toInt + 4 < 2 ^ 63 := by decide

theorem witness_PositionModeUsesTheParameterCellAsAddress :
    0 ≤ (progAt 0 0 [4, 0]).ip.toInt ∧ (progAt 0 0 [4, 0]).ip.toInt + (1 : Nat) < 2 ^ 63 ∧
    (0 : Cell) = (progAt 0 0 [4, 0]).mem.read ((progAt 0 0 [4, 0]).ip.toNat + 1) ∧
    (Cell.ofInt (-1)) = (progAt 0 0 [4, -1]).mem.read ((progAt 0 0 [4, -1]).ip.toNat + 1) := by decide

/-- One sum for each clause: too large, too small, negative, zero. -/
theorem witness_RelativeModeAddsTheRelativeBase :
    0 ≤ (progAt 0 9223372036854775807 [204, 1]).ip.toInt ∧
    (9223372036854775808 : Int) =
      ((progAt 0 9223372036854775807 [204, 1]).mem.read 1).toInt + (progAt 0 9223372036854775807 [204, 1]).rb.toInt ∧
    (-9223372036854775809 : Int) =
      ((progAt 0 (-9223372036854775808) [204, -1]).mem.read 1).toInt + (progAt 0 (-9223372036854775808) []).rb.toInt ∧
    (-1 : Int) = ((progAt 0 (-5) [204, 4]).mem.read 1).toInt + (progAt 0 (-5) []).rb.toInt ∧
    (0 : Int) = ((progAt 0 (-5) [204, 5]).mem.read 1).toInt + (progAt 0 (-5) []).rb.toInt := by decide

theorem witness_ImmediateModeReadsTheParameterCell :
    0 ≤ (progAt 9223372036854775804 0 []).ip.toInt ∧
    (progAt 9223372036854775804 0 []).ip.toInt + (3 : Nat) < 2 ^ 63 := by decide

theorem witness_ParameterCellPastTheTopIsAnError : 3 ≤ 3 ∧ 0 ≤ (progAt 9223372036854775805 0 []).ip.toInt ∧
    2 ^ 63 ≤ (progAt 9223372036854775805 0 []).ip.toInt + (3 : Nat) := by decide

/-- The hypotheses of ADD's statement, with a sum in range at its last value, and one just past it. -/
theorem witness_AddStoresTheSum :
    Mode.position ≠ .immediate ∧
    operand ov (prog [1101, 9223372036854775806, 1, 5]) 1 .immediate = .ok (Cell.ofInt 9223372036854775806) ∧
    operand ov (prog [1101, 9223372036854775806, 1, 5]) 2 .immediate = .ok 1 ∧
    writeTarget ov (prog [1101, 9223372036854775806, 1, 5]) 3 .position = .ok 5 ∧
    advance ov (prog [1101, 9223372036854775806, 1, 5]) 4 = .ok 4 ∧
    inInt64 ((Cell.ofInt 9223372036854775806).toInt + (1 : Cell).toInt) = true ∧
    operand ov (prog [1101, 9223372036854775807, 1, 5]) 1 .immediate = .ok (Cell.ofInt 9223372036854775807) ∧
    inInt64 ((Cell.ofInt 9223372036854775807).toInt + (1 : Cell).toInt) = false := by decide

/-- The hypotheses of MUL's statement, in range and out of it. -/
theorem witness_MulStoresTheProduct :
    Mode.relative ≠ .immediate ∧
    operand ov (prog [21102, -9223372036854775808, 1, 5]) 1 .immediate = .ok (Cell.ofInt (-9223372036854775808)) ∧
    operand ov (prog [21102, -9223372036854775808, 1, 5]) 2 .immediate = .ok 1 ∧
    writeTarget ov (prog [21102, -9223372036854775808, 1, 5]) 3 .relative = .ok 5 ∧
    advance ov (prog [21102, -9223372036854775808, 1, 5]) 4 = .ok 4 ∧
    inInt64 ((Cell.ofInt (-9223372036854775808)).toInt * (1 : Cell).toInt) = true ∧
    operand ov (prog [21102, -9223372036854775808, -1, 5]) 2 .immediate = .ok (Cell.ofInt (-1)) ∧
    inInt64 ((Cell.ofInt (-9223372036854775808)).toInt * (Cell.ofInt (-1)).toInt) = false := by decide

/-- The hypotheses of LT's and EQ's statements. -/
theorem witness_LtStoresOneOrZero :
    Mode.position ≠ .immediate ∧ operand ov (prog [1107, -5, 3, 5]) 1 .immediate = .ok (Cell.ofInt (-5)) ∧
    operand ov (prog [1107, -5, 3, 5]) 2 .immediate = .ok 3 ∧
    writeTarget ov (prog [1107, -5, 3, 5]) 3 .position = .ok 5 ∧ advance ov (prog [1107, -5, 3, 5]) 4 = .ok 4 := by
  decide

theorem witness_EqStoresOneOrZero :
    Mode.position ≠ .immediate ∧ operand ov (prog [8, 2, 3, 5]) 1 .position = .ok 3 ∧
    operand ov (prog [8, 2, 3, 5]) 2 .position = .ok 5 ∧ writeTarget ov (prog [8, 2, 3, 5]) 3 .position = .ok 5 ∧
    advance ov (prog [8, 2, 3, 5]) 4 = .ok 4 := by decide

theorem witness_InStoresTheHeadOfTheInputQueue :
    Mode.position ≠ .immediate ∧ writeTarget ov ((prog [3, 0]).pushInput 42) 1 .position = .ok 0 ∧
    advance ov ((prog [3, 0]).pushInput 42) 2 = .ok 2 ∧ ((prog [3, 0]).pushInput 42).inQ = 42 :: [] := by decide

theorem witness_InSuspendsOnAnEmptyQueue :
    Mode.position ≠ .immediate ∧ writeTarget ov (prog [3, 0]) 1 .position = .ok 0 ∧
    advance ov (prog [3, 0]) 2 = .ok 2 ∧ (prog [3, 0]).inQ = [] := by decide

theorem witness_OutAppendsItsOperand :
    operand ov (prog [4, 500]) 1 .position = .ok 0 ∧ advance ov (prog [4, 500]) 2 = .ok 2 := by decide

/-- Both clauses of JT: a nonzero condition, and zero with its advance. -/
theorem witness_JtJumpsWhenNonzero :
    operand ov (prog [1105, -1, -7]) 1 .immediate = .ok (Cell.ofInt (-1)) ∧
    operand ov (prog [1105, -1, -7]) 2 .immediate = .ok (Cell.ofInt (-7)) ∧ (Cell.ofInt (-1)).toInt ≠ 0 ∧
    operand ov (prog [1105, 0, 7]) 1 .immediate = .ok 0 ∧ operand ov (prog [1105, 0, 7]) 2 .immediate = .ok 7 ∧
    advance ov (prog [1105, 0, 7]) 3 = .ok 3 := by decide

/-- Both clauses of JF. -/
theorem witness_JfJumpsWhenZero :
    operand ov (prog [1106, 0, 7]) 1 .immediate = .ok 0 ∧ operand ov (prog [1106, 0, 7]) 2 .immediate = .ok 7 ∧
    operand ov (prog [1106, 1, 7]) 1 .immediate = .ok 1 ∧ operand ov (prog [1106, 1, 7]) 2 .immediate = .ok 7 ∧
    (1 : Cell).toInt ≠ 0 ∧ advance ov (prog [1106, 1, 7]) 3 = .ok 3 := by decide

/-- Both clauses of ARB: a sum at the last value, and one past it. -/
theorem witness_ArbAddsToTheRelativeBase :
    operand ov (progAt 0 9223372036854775806 [109, 1]) 1 .immediate = .ok 1 ∧
    advance ov (progAt 0 9223372036854775806 [109, 1]) 2 = .ok 2 ∧
    inInt64 ((progAt 0 9223372036854775806 [109, 1]).rb.toInt + (1 : Cell).toInt) = true ∧
    operand ov (progAt 0 9223372036854775807 [109, 1]) 1 .immediate = .ok 1 ∧
    advance ov (progAt 0 9223372036854775807 [109, 1]) 2 = .ok 2 ∧
    inInt64 ((progAt 0 9223372036854775807 [109, 1]).rb.toInt + (1 : Cell).toInt) = false := by decide

/-- Both clauses of HALT's step: valid digits at their last values, and an invalid one. -/
theorem witness_HaltTerminatesAndStays :
    (prog [22299]).isLive ∧ 0 ≤ (prog [22299]).ip.toInt ∧
    ((prog [22299]).mem.read (prog [22299]).ip.toNat).toInt = 99 + 100 * (2 : Nat) + 1000 * (2 : Nat) + 10000 * (2 : Nat) ∧
    ((prog [32299]).mem.read (prog [32299]).ip.toNat).toInt = 99 + 100 * (2 : Nat) + 1000 * (2 : Nat) + 10000 * (3 : Nat) := by
  decide

/-- Both cases of the first failing check: one fails, none fails. -/
theorem witness_FirstFailingCheckIsRaised :
    (executeChecks (.out .position .position .position) (prog [4, -1])).findSome? id =
      some (.illegalMemoryAccess 0 (Cell.ofInt (-1))) ∧
    (executeChecks (.out .position .position .position) (prog [4, 500])).findSome? id = none := by decide

theorem witness_NegativeIpRaisesAtFetch : (progAt (-1) 0 []).isLive ∧ (progAt (-1) 0 []).ip.toInt < 0 := by decide

theorem witness_UndecodableWordRaises : (prog [98]).isLive ∧ 0 ≤ (prog [98]).ip.toInt ∧
    decode ((prog [98]).mem.read (prog [98]).ip.toNat) = .error (.unknownOpcode 98) ∧ (prog [399]).isLive ∧
    0 ≤ (prog [399]).ip.toInt ∧
    decode ((prog [399]).mem.read (prog [399]).ip.toNat) = .error (.invalidParameterMode 1 3) := by decide

theorem witness_RaisingStepChangesOnlyTheFaultMark :
    step (prog [0]) = .next { prog [0] with fault := some (.unknownOpcode 0 0) } := by rfl

theorem witness_FaultedInstanceIsRefused :
    ({ prog [0] with fault := some (.unknownOpcode 0 0) } : State).fault = some (.unknownOpcode 0 0) := rfl

theorem witness_EveryStepWithoutFaultMarkAnswers : (prog [0]).fault = none := rfl

/-- Both clauses of the storing frame: the target resolves to 5, and it does not resolve. -/
theorem witness_StoringInstructionsFrame :
    Instr.add .immediate .immediate .position ∈ [Instr.add .immediate .immediate .position,
      .mul .immediate .immediate .position, .lt .immediate .immediate .position, .eq .immediate .immediate .position] ∧
    (after (exec (.add .immediate .immediate .position) (prog [1101, 1, 1, 5]))).isSome = true ∧
    writeTarget ov (prog [1101, 1, 1, 5]) 3 .position = .ok 5 ∧
    writeTarget ov (prog [1101, 1, 1, -1]) 3 .position = .error (.illegalMemoryAccess 0 (Cell.ofInt (-1))) := by decide

theorem witness_InFrame :
    (after (exec (.inp .position .position .position) ((prog [3, 5]).pushInput 7))).isSome = true ∧
    writeTarget ov ((prog [3, 5]).pushInput 7) 1 .position = .ok 5 ∧
    writeTarget ov (prog [3, -1]) 1 .position = .error (.illegalMemoryAccess 0 (Cell.ofInt (-1))) ∧
    (prog [3, 5]).inQ = [] := by decide

theorem witness_NonStoringInstructionsFrame :
    Instr.arb .immediate .position .position ∈ [Instr.out .immediate .position .position,
      .jt .immediate .position .position, .jf .immediate .position .position, .arb .immediate .position .position,
      .halt .immediate .position .position] ∧
    (after (exec (.arb .immediate .position .position) (prog [109, 3]))).isSome = true := by decide

theorem witness_OnlyArbChangesTheRelativeBase :
    (after (step (prog [109, 3]))).map (fun t => (decide (t.rb ≠ (prog [109, 3]).rb))) = some true := by decide

theorem witness_OnlyJumpsLeaveTheInstructionSequence :
    (after (step (prog [109, 3]))).isSome = true ∧ (prog [109, 3]).status ≠ .terminated ∧
    fetchDecode (prog [109, 3]) = .ok (.arb .immediate .position .position) ∧
    (Instr.arb .immediate .position .position).opcode ≠ .jt ∧
    (Instr.arb .immediate .position .position).opcode ≠ .jf := by decide

/-- A step under each hypothesis on the queues, and of the status table: raising, Terminated, completed. -/
theorem witness_QueuesAreFirstInFirstOut :
    (after (step ((prog [3, 0]).pushInput 7))).map (fun t => t.inQ) = some [] ∧
    (after (step (prog [104, 7]))).map (fun t => t.outQ) = some [7] := by decide

theorem witness_StatusFollowsTheTransitionTable :
    (after (step (prog [0]))).map (fun t => decide (t.fault ≠ none)) = some true ∧
    (after (step { prog [99] with status := .terminated })).isSome = true ∧
    (after (step (prog [3, 0]))).map (fun t => (t.fault, t.status)) = some (none, .waitingForInput) := by decide

theorem witness_StepRunsTheDecodedInstruction : (prog [99]).isLive ∧ 0 ≤ (prog [99]).ip.toInt ∧
    decode ((prog [99]).mem.read (prog [99]).ip.toNat) = .ok (.halt .position .position .position) := by decide

theorem witness_PlacedWordIsRunNext : decodeTableWord 16 1002 = some (.mul .position .immediate .position) := by decide

theorem witness_TerminatedIsAbsorbing : ({ prog [99] with status := .terminated } : State).isFinal := by decide

theorem witness_EveryStepKeepsTheInvariant :
    (prog [1101, 1, 1, 5]).Inv ∧ (after (step (prog [1101, 1, 1, 5]))).isSome = true :=
  ⟨⟨new_mem_wf _, by intro e h; cases h⟩, by decide⟩

/-- A store over the instruction's own first cell, then fetched. -/
theorem witness_StoresAreSeenByTheNextFetch :
    (prog [1101, 2, 0, 0, 99]).fault = none ∧
    (after (exec (.add .immediate .immediate .position) (prog [1101, 2, 0, 0, 99]))).map
      (fun t => (t.fault, t.status)) = some (none, .running) ∧
    storeAddress (.add .immediate .immediate .position) (prog [1101, 2, 0, 0, 99]) = some (.ok 0) := by decide

theorem witness_NewLoadsTheProgram : 0 < 2 ^ 63 ∧ 9223372036854775807 < 2 ^ 63 := by decide

theorem witness_OutputCallsReadTheOutputQueue : State.reset.outQ = [] ∧
    ({ State.reset with outQ := [5, 6] } : State).outQ = 5 :: [6] := by decide

theorem witness_HostCallsCannotReachTheMachine : HostCall.popOutput ≠ .step ∧
    ({ prog [1] with rb := 7, inQ := [1] } : State).status = (prog [2]).status ∧
    ({ prog [1] with rb := 7, inQ := [1] } : State).outQ = (prog [2]).outQ := by decide

theorem witness_InstancesShareNothing : (1 : Nat) ≠ 0 ∧ (2 : Nat) ≠ 0 ∧ (2 : Nat) ≠ 1 ∧
    [prog [1], prog [2]][0]? = [prog [1], prog [3]][0]? ∧
    [prog [1], prog [2]][0]? = some (prog [1]) ∧ [prog [1], prog [2]][1]? = some (prog [2]) := by decide

/-- Instance 0 feeds instance 1, and instance 0 feeds itself (R85). -/
theorem test_feed_moves_outputs :
    (feed [{ prog [1] with outQ := [5, 6] }, { prog [2] with inQ := [4] }] 0 1).map (fun s => (s.inQ, s.outQ)) =
      [([], []), ([4, 5, 6], [])] ∧
    (feed [{ prog [1] with inQ := [4], outQ := [5, 6] }] 0 0).map (fun s => (s.inQ, s.outQ)) = [([4, 5, 6], [])] := by
  decide

/-! ### Runs -/

/-- The one-instruction loop of vector J8, after its first step. -/
def loop : State := { prog [1105, 1, 0] with status := .running }

theorem step_loop : step loop = .next loop := by rfl

theorem returns_halt : Returns (prog [99]) .terminated { prog [99] with status := .terminated } := ⟨1, by decide⟩

theorem returns_suspended : Returns (prog [3, 0, 99]) .waitingForInput { prog [3, 0, 99] with status := .waitingForInput } :=
  ⟨1, by decide⟩

theorem fails_unknown : Fails (prog [0]) (.unknownOpcode 0 0) { prog [0] with fault := some (.unknownOpcode 0 0) } :=
  ⟨1, by decide⟩

theorem runFor_loop (n : Nat) : runFor n loop = .unfinished loop := by
  induction n with
  | zero => rfl
  | succ n ih => simp only [runFor, show stepReply loop = (.status .running, loop) by decide]; exact ih

theorem hangs_loop : Hangs loop := fun n => ⟨loop, runFor_loop n⟩

theorem safe_loop : Safe loop := by
  rintro e t ⟨n, h⟩
  rw [runFor_loop] at h
  cases h

theorem witness_RunRepeatsStepUntilNotRunning :
    (step loop = .next loop ∧ loop.fault = none ∧ loop.status = .running) ∧
    (step (prog [99]) = .next { prog [99] with status := .terminated } ∧
      ({ prog [99] with status := .terminated } : State).fault = none ∧ Status.terminated ≠ .running) ∧
    step (prog [0]) = .next { prog [0] with fault := some (.unknownOpcode 0 0) } ∧
    Returns (prog [99]) .terminated { prog [99] with status := .terminated } ∧
    Fails (prog [0]) (.unknownOpcode 0 0) { prog [0] with fault := some (.unknownOpcode 0 0) } ∧
    (∀ u, runFor 1 (prog [99]) ≠ .unfinished u) ∧ ({ prog [99] with status := .terminated } : State).isFinal ∧
    (step (prog [3, 0]) = .next { prog [3, 0] with status := .waitingForInput } ∧
      ({ prog [3, 0] with status := .waitingForInput } : State).isSuspended) ∧
    ∀ n u, runFor n loop = .unfinished u → ∃ t, step u = .next t ∧ t.fault = none ∧ t.status = .running :=
  ⟨⟨step_loop, rfl, rfl⟩, ⟨rfl, rfl, by decide⟩, rfl, returns_halt, fails_unknown,
    (by
      intro u
      rw [show runFor 1 (prog [99]) = .returned .terminated { prog [99] with status := .terminated } by decide]
      exact RunResult.noConfusion),
    by decide, ⟨rfl, by decide⟩,
    (by
      intro n u h
      rw [runFor_loop] at h
      cases h
      exact ⟨loop, step_loop, rfl, rfl⟩)⟩

theorem witness_RunReturnsOrFailsOrHangs : loop.fault = none ∧ Hangs loop ∧ Safe loop ∧
    Returns (prog [99]) .terminated { prog [99] with status := .terminated } ∧
    Fails (prog [0]) (.unknownOpcode 0 0) { prog [0] with fault := some (.unknownOpcode 0 0) } :=
  ⟨rfl, hangs_loop, safe_loop, returns_halt, fails_unknown⟩

theorem witness_EarlyInputCommutesWithSteps : step loop = .next loop ∧ ¬ loop.isSuspended :=
  ⟨step_loop, by decide⟩

theorem witness_ResumedRunEqualsRunWithEarlyInput :
    Returns (prog [3, 0, 99]) .waitingForInput { prog [3, 0, 99] with status := .waitingForInput } := returns_suspended

theorem witness_OneShotRunGivesItsOutputs :
    Returns ({ State.new [99] with inQ := [] } : State) .terminated { State.new [99] with status := .terminated } ∧
    Returns ({ State.new [3, 0] with inQ := [] } : State) .waitingForInput
      { State.new [3, 0] with status := .waitingForInput } ∧
    Fails ({ State.new [0] with inQ := [] } : State) (.unknownOpcode 0 0)
      { State.new [0] with fault := some (.unknownOpcode 0 0) } :=
  ⟨⟨1, by decide⟩, ⟨1, by decide⟩, ⟨1, by decide⟩⟩

end Sys2Proof.Tests
end

section
/-!
The wrapped cell of an integer (00_scope.md R12): its signed value, and that it is the only cell congruent to the
integer modulo 2^64.
-/
namespace Sys2Proof.Machine

/-- The wrapped value moves the integer into the signed range by whole multiples of 2^64. -/
theorem toInt_wrap64 (v : Int) : (wrap64 v).toInt = (v + 2 ^ 63) % 2 ^ 64 - 2 ^ 63 := by
  have hbmod : (wrap64 v).toInt = v.bmod (2 ^ 64) := BitVec.toInt_ofInt v
  rw [hbmod, Int.bmod_def]
  split <;> omega

/-- A cell is a wrapped value as soon as it is congruent to it: two signed values in `Int64` that differ by a multiple
of 2^64 are equal. -/
theorem toInt_sub_emod_eq_zero_iff (v : Int) (c : Cell) : (c.toInt - v) % 2 ^ 64 = 0 ↔ c = wrap64 v := by
  have hlo : -2 ^ 63 ≤ c.toInt := BitVec.le_toInt c
  have hhi : c.toInt < 2 ^ 63 := BitVec.toInt_lt
  rw [← BitVec.toInt_inj, toInt_wrap64]
  omega

/-- Settles O11: the signed value of the wrapped cell, and from it the uniqueness by the range of a cell's signed
value. -/
theorem wrapIsTheUniqueCongruentCell : Obligations.WrapIsTheUniqueCongruentCell :=
  fun v => ⟨toInt_wrap64 v, toInt_sub_emod_eq_zero_iff v⟩

end Sys2Proof.Machine
end

section
/-!
The memory family (20_memory.md): what a run of writes reads back as, what a newly built machine reads as, and what a
successful fetch says.
-/
namespace Sys2Proof.Machine

/-- The newest of a run of writes is done last. -/
theorem writes_concat (m : Memory) (ws : List (Nat × Cell)) (c : Nat × Cell) :
    writes m (ws ++ [c]) = (writes m ws).write c.1 c.2 := by
  simp [writes]

/-- After a run of writes an address reads as the newest write to it, and as before the run if there is none
(20_memory.md R33). -/
theorem read_writes (m : Memory) (ws : List (Nat × Cell)) (a : Nat) :
    (writes m ws).read a = (ws.reverse.find? fun c => c.1 = a).elim (m.read a) Prod.snd := by
  induction ws using List.reverseRecOn with
  | nil => rfl
  | append_singleton ws c ih =>
    rw [writes_concat, Memory.read_write, List.reverse_concat, List.find?_cons]
    by_cases hc : c.1 = a
    · simp [hc]
    · simp [hc, Ne.symm hc, ih]

/-- A run of writes to other addresses leaves a cell alone (20_memory.md R34). -/
theorem read_writes_of_forall_ne (m : Memory) {ws : List (Nat × Cell)} {a : Nat} (h : ∀ c ∈ ws, c.1 ≠ a) :
    (writes m ws).read a = m.read a := by
  have hnone : (ws.reverse.find? fun c => c.1 = a) = none := by simpa using h
  rw [read_writes, hnone, Option.elim_none]

/-- A newly built machine reads 0 past its program's end. -/
theorem read_new_outside {program : List Cell} {a : Nat} (h : program.length ≤ a) :
    (State.new program).mem.read a = 0 := by
  rw [State.new_mem, Memory.read_load_outside program (.inr (by omega)), Memory.read_nil, untouched]

/-- A newly built machine reads as its program, and 0 past the program's end (70_reset_and_hazards.md R120). -/
theorem read_new (program : List Cell) {a : Nat} (ha : a < 2 ^ 63) :
    (State.new program).mem.read a = if h : a < program.length then program[a] else 0 := by
  split
  next h =>
    have hload := Memory.read_load_inside (m := []) (a := 0) program h (by omega)
    rwa [Nat.zero_add] at hload
  next h => exact read_new_outside (Nat.le_of_not_lt h)

/-- A fetch that succeeds has checked `ip`, and gives the cell there (40_controller.md R78). -/
theorem fetch_ok {s : State} {w : Cell} (h : fetch s = .ok w) : ¬ s.ip.toInt < 0 ∧ w = s.mem.read s.ip.toNat := by
  unfold fetch at h
  split at h
  next => cases h
  next hip => exact ⟨hip, (Except.ok.inj h).symm⟩

/-- Settles O7: the later writes leave the written cell alone, and a single write and a newly built machine read as
their own lemmas say. -/
theorem writeIsReadBackUntilTheNextWrite : Obligations.WriteIsReadBackUntilTheNextWrite := by
  refine ⟨fun m a v later hlater => ?_, fun m a b v => Memory.read_write_other m v, fun program a v _ => ⟨?_, ?_⟩⟩
  · rw [read_writes_of_forall_ne _ hlater, Memory.read_write_same]
  · exact Memory.read_write_same _ a v
  · intro b hb hne
    rw [Memory.read_write_other _ v hne, read_new_outside hb]

/-- Settles O8: the newest write is found or there is none, and then the loaded program is read; the address checks are
those of a successful fetch and of a resolved address. -/
theorem readGivesLastWriteElseLoadedElseZero : Obligations.ReadGivesLastWriteElseLoadedElseZero := by
  refine ⟨fun program ws a ha => ?_, fun s w hfetch => ?_, fun ov s k m a haddr => ?_⟩
  · rw [read_writes, read_new program ha]
    cases ws.reverse.find? (fun c => c.1 = a) <;> rfl
  · obtain ⟨hip, hw⟩ := fetch_ok hfetch
    exact ⟨Int.not_lt.mp hip, hw⟩
  · exact Int.not_lt.mp (effectiveAddress_nonneg haddr)

end Sys2Proof.Machine
end

section
/-!
The encoding family (30_encoding.md), position mode: where a parameter's own cell is while it lies in the address space,
and what resolves through it.
-/
namespace Sys2Proof.Machine

theorem checkAddress_of_neg (ip : Cell) {a : Cell} (h : a.toInt < 0) :
    checkAddress ip a = .error (.illegalMemoryAccess ip a) := if_pos h

theorem checkAddress_of_nonneg (ip : Cell) {a : Cell} (h : ¬ a.toInt < 0) : checkAddress ip a = .ok a := if_neg h

/-- A parameter cell inside the address space resolves under both overflow modes, to the address `ip + k`
(30_encoding.md R57). -/
theorem parameterCell_of_lt (ov : OverflowMode) {s : State} {k : Nat} (hip : 0 ≤ s.ip.toInt)
    (htop : s.ip.toInt + k < 2 ^ 63) :
    ∃ p : Cell, parameterCell ov s k = .ok p ∧ p.toNat = s.ip.toNat + k := by
  have hk : (BitVec.ofNat 64 k).toInt = k := toInt_ofNat (by omega)
  have hrange : inInt64 (s.ip.toInt + k) = true := (inInt64_iff _).mpr (by omega)
  have hp : (Cell.ofInt (s.ip.toInt + k)).toInt = s.ip.toInt + k := toInt_ofInt hrange
  have hnonneg : ¬ (Cell.ofInt (s.ip.toInt + k)).toInt < 0 := by omega
  refine ⟨Cell.ofInt (s.ip.toInt + k), ?_, ?_⟩
  · rw [parameterCell, add64, hk, narrow_of_inInt64 ov s.ip hrange]
    exact checkAddress_of_nonneg s.ip hnonneg
  · have haddr := toNat_of_nonneg hnonneg
    have hipAddr := toNat_of_nonneg (Int.not_lt.mpr hip)
    omega

/-- In position mode the effective address is the parameter cell's value, checked (30_encoding.md R58). -/
theorem effectiveAddress_position (ov : OverflowMode) {s : State} {k : Nat} (hip : 0 ≤ s.ip.toInt)
    (htop : s.ip.toInt + k < 2 ^ 63) :
    effectiveAddress ov s k .position = checkAddress s.ip (s.mem.read (s.ip.toNat + k)) := by
  obtain ⟨p, hp, hpAddr⟩ := parameterCell_of_lt ov hip htop
  rw [effectiveAddress, hp, ← hpAddr]
  rfl

/-- An operand whose address is an error is that error (30_encoding.md R62). -/
theorem operand_of_error {ov : OverflowMode} {s : State} {k : Nat} {m : Mode} {e : VmError}
    (h : effectiveAddress ov s k m = .error e) : operand ov s k m = .error e := by
  rw [operand, h]
  rfl

/-- An operand whose address resolves is the cell there (30_encoding.md R62). -/
theorem operand_of_ok {ov : OverflowMode} {s : State} {k : Nat} {m : Mode} {a : Cell}
    (h : effectiveAddress ov s k m = .ok a) : operand ov s k m = .ok (s.mem.read a.toNat) := by
  rw [operand, h]
  rfl

/-- Settles O14: reads and write targets share one effective address, which is the parameter cell's value after the
address check; the check fails or passes by that value's sign. -/
theorem positionModeUsesTheParameterCellAsAddress : Obligations.PositionModeUsesTheParameterCellAsAddress := by
  rintro ov s k value hip htop rfl
  have haddr := effectiveAddress_position ov hip htop
  split
  next hneg =>
    rw [checkAddress_of_neg _ hneg] at haddr
    exact ⟨operand_of_error haddr, haddr⟩
  next hnonneg =>
    rw [checkAddress_of_nonneg _ hnonneg] at haddr
    exact ⟨operand_of_ok haddr, haddr⟩

end Sys2Proof.Machine
end

section
/-!
The encoding family (30_encoding.md), the opcode table: the number of an opcode and its reading are inverse, and the
numbers are those of R64.
-/
namespace Sys2Proof

/-- A number reads as an opcode just when it is that opcode's number. -/
theorem Opcode.ofNumber_eq_some_iff (n : Int) (op : Opcode) : Opcode.ofNumber n = some op ↔ op.number = n := by
  constructor
  · exact fun h => (Opcode.ofNumber_some h).symm
  · rintro rfl
    exact op.ofNumber_number

/-- The opcodes in the order of their numbers (30_encoding.md R64). -/
def Opcode.all : List Opcode := [.add, .mul, .inp, .out, .jt, .jf, .lt, .eq, .arb, .halt]

theorem Opcode.mem_all (op : Opcode) : op ∈ Opcode.all := by cases op <;> decide

theorem Opcode.map_number_all : Opcode.all.map Opcode.number = [1, 2, 3, 4, 5, 6, 7, 8, 9, 99] := rfl

/-- The numbers that read as an opcode are the listed ones: those of the ten opcodes. -/
theorem Opcode.exists_ofNumber_iff (n : Int) :
    (∃ op, Opcode.ofNumber n = some op) ↔ n ∈ [1, 2, 3, 4, 5, 6, 7, 8, 9, 99] := by
  simp only [Opcode.ofNumber_eq_some_iff, ← Opcode.map_number_all, List.mem_map, Opcode.mem_all, true_and]

/-- Settles O5: the known numbers are the opcodes' own, and the table of widths and roles is read off the definitions. -/
theorem knownOpcodesWidthsAndRoles : Obligations.KnownOpcodesWidthsAndRoles :=
  ⟨Opcode.exists_ofNumber_iff, Opcode.ofNumber_eq_some_iff, rfl⟩

end Sys2Proof
end

section
/-!
The controller family (40_controller.md): `push_input` as an operation of the host (R71).
-/
namespace Sys2Proof.Machine

/-- The whole next state of `push_input`: the value is at the tail of the input queue, and every other field is kept. -/
theorem State.pushInput_eq (s : State) (v : Cell) : s.pushInput v = { s with inQ := s.inQ ++ [v] } := rfl

@[simp] theorem hostCall_pushInput (s : State) (v : Cell) : hostCall (.pushInput v) s = (.done, s.pushInput v) := rfl

/-- Settles O50: the call gives back `done` in every state, and its next state is that of the operation itself. -/
theorem pushInputAppendsOneValue : Obligations.PushInputAppendsOneValue := by
  intro s v
  refine ⟨s.pushInput_eq v, ?_⟩
  rw [hostCall_pushInput, State.pushInput_eq]

end Sys2Proof.Machine
end

section
/-!
The encoding family (30_encoding.md), the decoder: the fields of a word, what the decoder answers for them, and that
decoding and encoding are inverse.
-/
namespace Sys2Proof

/-! ## The fields of a word -/

theorem opcodeField_of_nonneg {w : Cell} (h : 0 ≤ w.toInt) : opcodeField w = w.toInt % 100 :=
  Int.tmod_eq_emod_of_nonneg h

theorem modeField_one_of_nonneg {w : Cell} (h : 0 ≤ w.toInt) : (modeField 1 w : Int) = w.toInt / 100 % 10 := by
  simp only [modeField, decimalDigit]
  omega

theorem modeField_two_of_nonneg {w : Cell} (h : 0 ≤ w.toInt) : (modeField 2 w : Int) = w.toInt / 1000 % 10 := by
  simp only [modeField, decimalDigit]
  omega

theorem modeField_three_of_nonneg {w : Cell} (h : 0 ≤ w.toInt) : (modeField 3 w : Int) = w.toInt / 10000 := by
  simp only [modeField]
  omega

/-- A number that is not listed is no opcode's (30_encoding.md R64). -/
theorem Opcode.ofNumber_eq_none {n : Int} (h : n ∉ [1, 2, 3, 4, 5, 6, 7, 8, 9, 99]) : Opcode.ofNumber n = none := by
  rw [Option.eq_none_iff_forall_ne_some]
  exact fun op hop => h ((Opcode.exists_ofNumber_iff n).mp ⟨op, hop⟩)

/-- A negative word's opcode field is a negated two-digit number (30_encoding.md R51). -/
theorem opcodeField_of_neg {w : Cell} (h : w.toInt < 0) : opcodeField w = -(-w.toInt % 100) := by
  rw [opcodeField, ← Int.tmod_eq_emod_of_nonneg (by omega : 0 ≤ -w.toInt), Int.neg_tmod, Int.neg_neg]

theorem opcodeField_bounds_of_neg {w : Cell} (h : w.toInt < 0) : -99 ≤ opcodeField w ∧ opcodeField w ≤ 0 := by
  rw [opcodeField_of_neg h]
  omega

/-- A word whose opcode field is known is not negative. -/
theorem nonneg_of_ofNumber_opcodeField {w : Cell} {op : Opcode} (h : Opcode.ofNumber (opcodeField w) = some op) :
    0 ≤ w.toInt := by
  by_contra hneg
  have hfield := opcodeField_bounds_of_neg (Int.not_le.mp hneg)
  have hnumber := op.number_bounds
  rw [Opcode.ofNumber_some h] at hfield
  omega

/-- The mode of a field below 3, with its digit. -/
theorem Mode.exists_ofField {d : Nat} (h : d < 3) : ∃ m, Mode.ofField d = some m ∧ d = m.digit := by
  cases hm : Mode.ofField d with
  | none => exact absurd (Mode.ofField_none.mp hm) (by omega)
  | some m => exact ⟨m, rfl, Mode.ofField_some hm⟩

/-! ## What the decoder answers, field by field (40_controller.md R79) -/

theorem decode_of_ofNumber_none {w : Cell} (h : Opcode.ofNumber (opcodeField w) = none) :
    decode w = .error (.unknownOpcode (opcodeField w)) := by
  simp [decode, h]

theorem decodeMode_of_some {k : Nat} {w : Cell} {m : Mode} (h : Mode.ofField (modeField k w) = some m) :
    decodeMode k w = .ok m := by
  simp [decodeMode, h]

theorem decodeMode_of_three_le {k : Nat} {w : Cell} (h : 3 ≤ modeField k w) :
    decodeMode k w = .error (.invalidParameterMode k (modeField k w)) := by
  simp [decodeMode, Mode.ofField_none.mpr h]

section
variable {w : Cell} {op : Opcode} (ho : Opcode.ofNumber (opcodeField w) = some op)
include ho

theorem decode_of_invalid_first (h1 : 3 ≤ modeField 1 w) :
    decode w = .error (.invalidParameterMode 1 (modeField 1 w)) := by
  simp [decode, ho, decodeMode_of_three_le h1, Except.bind]

variable {m1 : Mode} (h1 : Mode.ofField (modeField 1 w) = some m1)
include h1

theorem decode_of_invalid_second (h2 : 3 ≤ modeField 2 w) :
    decode w = .error (.invalidParameterMode 2 (modeField 2 w)) := by
  simp [decode, ho, decodeMode_of_some h1, decodeMode_of_three_le h2, Except.bind]

variable {m2 : Mode} (h2 : Mode.ofField (modeField 2 w) = some m2)
include h2

theorem decode_of_invalid_third (h3 : 3 ≤ modeField 3 w) :
    decode w = .error (.invalidParameterMode 3 (modeField 3 w)) := by
  simp [decode, ho, decodeMode_of_some h1, decodeMode_of_some h2, decodeMode_of_three_le h3, Except.bind]

variable {m3 : Mode} (h3 : Mode.ofField (modeField 3 w) = some m3)
include h3

theorem decode_of_immediateTarget {k : Nat} (ht : immediateTarget op m1 m2 m3 = some k) :
    decode w = .error (.invalidParameterMode k 1) := by
  simp [decode, ho, decodeMode_of_some h1, decodeMode_of_some h2, decodeMode_of_some h3, ht, Except.bind]

theorem decode_of_fields (ht : immediateTarget op m1 m2 m3 = none) :
    decode w = .ok (Instr.ofParts op m1 m2 m3) := by
  simp [decode, ho, decodeMode_of_some h1, decodeMode_of_some h2, decodeMode_of_some h3, ht, Except.bind]

end

/-- The write target's check, by the opcode's number and the mode digits (30_encoding.md R55, R56). -/
theorem immediateTarget_eq (op : Opcode) (m1 m2 m3 : Mode) :
    immediateTarget op m1 m2 m3 =
      if op.number ∈ [1, 2, 7, 8] ∧ (m3.digit : Int) = 1 then some 3
      else if op.number = 3 ∧ (m1.digit : Int) = 1 then some 1 else none := by
  cases op <;> cases m1 <;> cases m3 <;> rfl

/-! ## The fields of an encoded instruction -/

/-- The value of an instruction's word (30_encoding.md R50). -/
theorem encodedWord (i : Instr) : Laws.EncodedWord.Statement i := by
  cases i with
  | add => exact Laws.EncodedWord.add ..
  | mul => exact Laws.EncodedWord.mul ..
  | inp => exact Laws.EncodedWord.inp ..
  | out => exact Laws.EncodedWord.out ..
  | jt => exact Laws.EncodedWord.jt ..
  | jf => exact Laws.EncodedWord.jf ..
  | lt => exact Laws.EncodedWord.lt ..
  | eq => exact Laws.EncodedWord.eq ..
  | arb => exact Laws.EncodedWord.arb ..
  | halt => exact Laws.EncodedWord.halt ..

/-- Each field of an encoded instruction reads as the part it was made of. -/
theorem fields_encode (i : Instr) :
    Opcode.ofNumber (opcodeField (encode i)) = some i.opcode ∧
    Mode.ofField (modeField 1 (encode i)) = some i.modes.1 ∧
    Mode.ofField (modeField 2 (encode i)) = some i.modes.2.1 ∧
    Mode.ofField (modeField 3 (encode i)) = some i.modes.2.2 := by
  obtain ⟨hval, hnonneg, -⟩ := encodedWord i
  have hop := i.opcode.number_bounds
  have h1 := i.modes.1.digit_le
  have h2 := i.modes.2.1.digit_le
  have h3 := i.modes.2.2.digit_le
  have hopField : opcodeField (encode i) = i.opcode.number := by
    rw [opcodeField_of_nonneg hnonneg]
    omega
  have hfield1 : modeField 1 (encode i) = i.modes.1.digit := by
    have := modeField_one_of_nonneg hnonneg
    omega
  have hfield2 : modeField 2 (encode i) = i.modes.2.1.digit := by
    have := modeField_two_of_nonneg hnonneg
    omega
  have hfield3 : modeField 3 (encode i) = i.modes.2.2.digit := by
    have := modeField_three_of_nonneg hnonneg
    omega
  rw [hopField, hfield1, hfield2, hfield3]
  exact ⟨Opcode.ofNumber_number _, Mode.ofField_digit _, Mode.ofField_digit _, Mode.ofField_digit _⟩

/-- A well-formed instruction is decoded from its word. -/
theorem decode_encode {i : Instr} (h : i.wellFormed = true) : decode (encode i) = .ok i := by
  obtain ⟨hop, h1, h2, h3⟩ := fields_encode i
  have hlegal : immediateTarget i.opcode i.modes.1 i.modes.2.1 i.modes.2.2 = none := by
    rw [immediateTarget_none_iff, Instr.ofParts_parts]
    exact h
  rw [decode_of_fields hop h1 h2 h3 hlegal, Instr.ofParts_parts]

/-- Whatever a word of an instruction decodes to is that instruction. -/
theorem eq_of_decode_encode {i j : Instr} (h : decode (encode i) = .ok j) : j = i := by
  obtain ⟨hop, h1, h2, h3⟩ := fields_encode i
  obtain ⟨op, m1, m2, m3, hop', h1', h2', h3', -, rfl⟩ := decode_ok h
  obtain rfl : i.opcode = op := by simpa [hop] using hop'
  obtain rfl : i.modes.1 = m1 := by simpa [h1] using h1'
  obtain rfl : i.modes.2.1 = m2 := by simpa [h2] using h2'
  obtain rfl : i.modes.2.2 = m3 := by simpa [h3] using h3'
  exact i.ofParts_parts

/-- A word that decodes is the word of the decoded instruction, which is well formed: its value is put together again
from its fields. -/
theorem encode_of_decode {w : Cell} {i : Instr} (h : decode w = .ok i) : i.wellFormed = true ∧ encode i = w := by
  obtain ⟨op, m1, m2, m3, hop, h1, h2, h3, hlegal, rfl⟩ := decode_ok h
  refine ⟨(immediateTarget_none_iff ..).mp hlegal, BitVec.eq_of_toInt_eq ?_⟩
  have hnonneg := nonneg_of_ofNumber_opcodeField hop
  have hval := (encodedWord (Instr.ofParts op m1 m2 m3)).1
  simp only [Instr.ofParts_opcode, Instr.ofParts_modes] at hval
  have hopField := Opcode.ofNumber_some hop
  rw [opcodeField_of_nonneg hnonneg] at hopField
  have hfield1 := modeField_one_of_nonneg hnonneg
  have hfield2 := modeField_two_of_nonneg hnonneg
  have hfield3 := modeField_three_of_nonneg hnonneg
  rw [Mode.ofField_some h1] at hfield1
  rw [Mode.ofField_some h2] at hfield2
  rw [Mode.ofField_some h3] at hfield3
  omega

/-- Settles O2: a decoded word is put together again from its fields, and the fields of an encoded instruction read as
its parts. -/
theorem decodeAndEncodeAgree : Obligations.DecodeAndEncodeAgree := by
  intro w i
  constructor
  · exact encode_of_decode
  · rintro ⟨hwf, rfl⟩
    exact decode_encode hwf

/-- Settles O3: the opcode's number is looked up first; a known one leaves a word that is not negative, whose mode
fields are read in order, and whose write target is checked last. -/
theorem decodeRefusesAtTheFirstInvalidField : Obligations.DecodeRefusesAtTheFirstInvalidField := by
  intro w op m1 m2 m3 hop h1 h2 h3
  change op = opcodeField w at hop
  split
  next hunknown =>
    rw [hop] at hunknown ⊢
    exact decode_of_ofNumber_none (Opcode.ofNumber_eq_none hunknown)
  next hknown =>
  obtain ⟨o, ho⟩ := (Opcode.exists_ofNumber_iff op).mpr (not_not.mp hknown)
  have hnumber : op = o.number := Opcode.ofNumber_some ho
  rw [hop] at ho
  have hnonneg := nonneg_of_ofNumber_opcodeField ho
  rw [← modeField_one_of_nonneg hnonneg] at h1
  rw [← modeField_two_of_nonneg hnonneg] at h2
  rw [← modeField_three_of_nonneg hnonneg] at h3
  split
  next hm1 => rw [h1, Int.toNat_natCast, decode_of_invalid_first ho (by omega)]
  next hm1 =>
  obtain ⟨p1, hp1, hd1⟩ := Mode.exists_ofField (d := modeField 1 w) (by omega)
  split
  next hm2 => rw [h2, Int.toNat_natCast, decode_of_invalid_second ho hp1 (by omega)]
  next hm2 =>
  obtain ⟨p2, hp2, hd2⟩ := Mode.exists_ofField (d := modeField 2 w) (by omega)
  split
  next hm3 => rw [h3, Int.toNat_natCast, decode_of_invalid_third ho hp1 hp2 (by omega)]
  next hm3 =>
  obtain ⟨p3, hp3, hd3⟩ := Mode.exists_ofField (d := modeField 3 w) (by omega)
  rw [hd1] at h1
  rw [hd2] at h2
  rw [hd3] at h3
  have htarget := immediateTarget_eq o p1 p2 p3
  rw [← hnumber, ← h1, ← h3] at htarget
  split
  next hlast =>
    rw [if_pos hlast] at htarget
    exact decode_of_immediateTarget ho hp1 hp2 hp3 htarget
  next hlast =>
  rw [if_neg hlast] at htarget
  split
  next hfirst =>
    rw [if_pos hfirst] at htarget
    exact decode_of_immediateTarget ho hp1 hp2 hp3 htarget
  next hfirst =>
    rw [if_neg hfirst] at htarget
    refine ⟨_, decode_of_fields ho hp1 hp2 hp3 htarget, ?_⟩
    simp [hnumber, h1, h2, h3]

/-- Settles O4: the opcode field of a negative word is not positive, and no opcode has such a number. -/
theorem negativeWordsAreUnknownOpcodes : Obligations.NegativeWordsAreUnknownOpcodes := by
  intro w hneg
  refine ⟨decode_of_ofNumber_none ?_, opcodeField_bounds_of_neg hneg⟩
  rw [Option.eq_none_iff_forall_ne_some]
  exact fun op hop => absurd (nonneg_of_ofNumber_opcodeField hop) (Int.not_le.mpr hneg)

/-- Settles O1: each listed word is a fixed cell, on which the decoder runs. -/
theorem specWordsDecode : Obligations.SpecWordsDecode := by
  unfold Obligations.SpecWordsDecode
  decide

end Sys2Proof

namespace Sys2Proof.Machine

/-! ## The assembly form (30_encoding.md R68) -/

@[simp] theorem AsmOperand.ofCell_mode_cell (x : AsmOperand) : AsmOperand.ofCell x.mode x.cell = x := by
  cases x <;> rfl

/-- Settles O6: a line's first cell is the word of an instruction, so it decodes to that instruction only, and each
operand is put together again from its mode and its cell. -/
theorem assembledLinesPrintBack : Obligations.AssembledLinesPrintBack := by
  intro line w ps i hline hcells hdec
  cases line with
  | cell v => exact absurd rfl (hline v)
  | _ =>
    obtain ⟨rfl, rfl⟩ := List.cons.inj hcells
    obtain rfl := eq_of_decode_encode hdec
    simp [disassemble, Instr.opcode, Opcode.width]

end Sys2Proof.Machine
end

section
/-!
The memory family (20_memory.md): the canonical form determines the list, and the paged store reads as the flat memory.
-/
namespace Sys2Proof.Machine

/-! ## The canonical form -/

theorem Memory.wf_cons {a : Nat} {v : Cell} {m : Memory} :
    Memory.wf ((a, v) :: m) ↔ (∀ c ∈ m, a < c.1) ∧ (a < 2 ^ 63 ∧ v ≠ untouched) ∧ Memory.wf m := by
  simp only [Memory.wf, List.pairwise_cons, List.forall_mem_cons]
  tauto

theorem Memory.read_head (a : Nat) (v : Cell) (m : Memory) : Memory.read ((a, v) :: m) a = v := by
  simp [Memory.read_cons]

/-- An address below every listed one is not listed. -/
theorem Memory.read_of_forall_lt {m : Memory} {a : Nat} (h : ∀ c ∈ m, a < c.1) : m.read a = untouched := by
  induction m with
  | nil => rfl
  | cons c m ih =>
    obtain ⟨hc, hm⟩ := List.forall_mem_cons.mp h
    rw [Memory.read_cons, if_neg (Nat.ne_of_lt hc), ih hm]

/-- The first listed address of a canonical memory is not below every address of a memory that reads alike. -/
theorem Memory.not_forall_lt_of_read_eq {a : Nat} {v : Cell} {m n : Memory} (hm : Memory.wf ((a, v) :: m))
    (halike : ∀ x, Memory.read ((a, v) :: m) x = n.read x) : ¬ ∀ c ∈ n, a < c.1 := by
  intro hlt
  obtain ⟨-, ⟨-, hv⟩, -⟩ := Memory.wf_cons.mp hm
  have hread := halike a
  rw [Memory.read_head, Memory.read_of_forall_lt hlt] at hread
  exact hv hread

/-- Two canonical memories that read alike do not begin with a smaller and a greater address. -/
theorem Memory.head_le_of_read_eq {a b : Nat} {v w : Cell} {m n : Memory} (hm : Memory.wf ((a, v) :: m))
    (hn : Memory.wf ((b, w) :: n)) (halike : ∀ x, Memory.read ((a, v) :: m) x = Memory.read ((b, w) :: n) x) :
    b ≤ a := by
  by_contra hab
  obtain ⟨hrise, -, -⟩ := Memory.wf_cons.mp hn
  refine Memory.not_forall_lt_of_read_eq hm halike (List.forall_mem_cons.mpr ⟨by omega, fun c hc => ?_⟩)
  exact (Nat.lt_of_not_le hab).trans (hrise c hc)

/-- The tails of canonical memories with the same first address read alike if the whole memories do. -/
theorem Memory.tail_read_eq {a : Nat} {v w : Cell} {m n : Memory} (hm : Memory.wf ((a, v) :: m))
    (hn : Memory.wf ((a, w) :: n)) (halike : ∀ x, Memory.read ((a, v) :: m) x = Memory.read ((a, w) :: n) x)
    (x : Nat) : m.read x = n.read x := by
  by_cases hx : x = a
  · rw [hx, Memory.read_of_forall_lt (Memory.wf_cons.mp hm).1, Memory.read_of_forall_lt (Memory.wf_cons.mp hn).1]
  · have hread := halike x
    rwa [Memory.read_cons, Memory.read_cons, if_neg hx, if_neg hx] at hread

/-- Settles O9, by induction on both lists: the first addresses are the least listed ones, so they and their cells are
the same, and the tails read alike. -/
theorem canonicalMemoriesThatReadAlikeAreEqual : Obligations.CanonicalMemoriesThatReadAlikeAreEqual := by
  intro m
  induction m with
  | nil =>
    intro n _ hn halike
    cases n with
    | nil => rfl
    | cons c n => exact absurd (by simp) (Memory.not_forall_lt_of_read_eq hn fun x => (halike x).symm)
  | cons c m ih =>
    intro n hm hn halike
    obtain ⟨a, v⟩ := c
    cases n with
    | nil => exact absurd (by simp) (Memory.not_forall_lt_of_read_eq hm halike)
    | cons d n =>
      obtain ⟨b, w⟩ := d
      obtain rfl : a = b :=
        le_antisymm (Memory.head_le_of_read_eq hn hm fun x => (halike x).symm) (Memory.head_le_of_read_eq hm hn halike)
      have hcell := halike a
      rw [Memory.read_head, Memory.read_head] at hcell
      rw [hcell, ih n (Memory.wf_cons.mp hm).2.2 (Memory.wf_cons.mp hn).2.2 (Memory.tail_read_eq hm hn halike)]

/-! ## The paged store (20_memory.md R35) -/

theorem PagedStore.page_setPage (p : PagedStore) (i j : Nat) (cells : List Cell) :
    (p.setPage i cells).page j = if j = i then some cells else p.page j := by
  induction p with
  | nil => rfl
  | cons q p ih =>
    obtain ⟨k, old⟩ := q
    simp only [PagedStore.setPage]
    split
    next hik =>
      subst hik
      simp only [PagedStore.page]
      split <;> rfl
    next hik =>
      simp only [PagedStore.page, ih]
      split
      next hjk => rw [if_neg (by omega)]
      next => rfl

/-- Every page that exists has the page size. -/
def PagedStore.WholePages (pageSize : Nat) (p : PagedStore) : Prop :=
  ∀ i cells, p.page i = some cells → cells.length = pageSize

theorem PagedStore.wholePages_nil (pageSize : Nat) : PagedStore.WholePages pageSize [] :=
  fun _ _ h => nomatch h

/-- The cells of a page that a write goes to: the page, or a new one (20_memory.md R35). -/
theorem PagedStore.length_getD_page {pageSize : Nat} {p : PagedStore} (h : p.WholePages pageSize) (i : Nat) :
    ((p.page i).getD (freshPage pageSize)).length = pageSize := by
  cases hp : p.page i with
  | none => exact List.length_replicate
  | some cells => exact h i cells hp

theorem PagedStore.wholePages_write {pageSize : Nat} {p : PagedStore} (h : p.WholePages pageSize) (a : Nat) (v : Cell) :
    (p.write pageSize a v).WholePages pageSize := by
  intro i cells hi
  rw [PagedStore.write, PagedStore.page_setPage] at hi
  split at hi
  next =>
    obtain rfl := Option.some.inj hi
    rw [List.length_set, PagedStore.length_getD_page h]
  next => exact h i cells hi

/-- A page that does not exist reads as a new one. -/
theorem PagedStore.read_eq_getD (pageSize : Nat) (p : PagedStore) (a : Nat) :
    p.read pageSize a = ((p.page (a / pageSize)).getD (freshPage pageSize)).getD (a % pageSize) untouched := by
  unfold PagedStore.read
  cases p.page (a / pageSize) with
  | none => simp [freshPage, List.getD]
  | some cells => rfl

/-- A paged read after a paged write, as for the flat memory. -/
theorem PagedStore.read_write {pageSize : Nat} {p : PagedStore} (hsize : 0 < pageSize) (h : p.WholePages pageSize)
    (a b : Nat) (v : Cell) : (p.write pageSize a v).read pageSize b = if b = a then v else p.read pageSize b := by
  have hoffset : a % pageSize < ((p.page (a / pageSize)).getD (freshPage pageSize)).length := by
    rw [PagedStore.length_getD_page h]
    exact Nat.mod_lt a hsize
  rw [PagedStore.read_eq_getD, PagedStore.read_eq_getD, PagedStore.write, PagedStore.page_setPage]
  by_cases hpage : b / pageSize = a / pageSize
  · rw [if_pos hpage, hpage, Option.getD_some]
    by_cases hoff : b % pageSize = a % pageSize
    · have hba : b = a := by rw [← Nat.div_add_mod b pageSize, hpage, hoff, Nat.div_add_mod]
      rw [if_pos hba, hoff, List.getD_eq_getElem?_getD, List.getElem?_set_self hoffset, Option.getD_some]
    · have hba : b ≠ a := by
        rintro rfl
        exact hoff rfl
      rw [if_neg hba, List.getD_eq_getElem?_getD, List.getElem?_set_ne (Ne.symm hoff),
        ← List.getD_eq_getElem?_getD]
  · have hba : b ≠ a := by
      rintro rfl
      exact hpage rfl
    rw [if_neg hpage, if_neg hba]

theorem pagedWrites_concat (pageSize : Nat) (p : PagedStore) (ws : List (Nat × Cell)) (c : Nat × Cell) :
    pagedWrites pageSize p (ws ++ [c]) = (pagedWrites pageSize p ws).write pageSize c.1 c.2 := by
  simp [pagedWrites]

theorem wholePages_pagedWrites (pageSize : Nat) (ws : List (Nat × Cell)) :
    (pagedWrites pageSize [] ws).WholePages pageSize := by
  induction ws using List.reverseRecOn with
  | nil => exact PagedStore.wholePages_nil pageSize
  | append_singleton ws c ih =>
    rw [pagedWrites_concat]
    exact PagedStore.wholePages_write ih c.1 c.2

/-- Settles O10, by induction on the writes: both stores answer a read after one more write by the same rule. -/
theorem pagedStoreReadsAsFlatMemory : Obligations.PagedStoreReadsAsFlatMemory := by
  intro pageSize ws a hsize
  induction ws using List.reverseRecOn with
  | nil => rfl
  | append_singleton ws c ih =>
    rw [pagedWrites_concat, writes_concat, PagedStore.read_write hsize (wholePages_pagedWrites pageSize ws),
      Memory.read_write, ih]

/-! ## Construction (70_reset_and_hazards.md) -/

/-- Settles O48: a newly built machine reads as its program, and its other components are those of reset. -/
theorem newLoadsTheProgram : Obligations.NewLoadsTheProgram :=
  fun program => ⟨fun _ ha => read_new program ha, rfl, rfl, rfl, rfl, rfl, rfl⟩

/-- Settles O46: the memory is canonical, whatever the program, and there is no fault mark. -/
theorem invariantHoldsAtConstruction : Obligations.InvariantHoldsAtConstruction :=
  ⟨⟨reset_mem_wf, nofun⟩, fun program => ⟨new_mem_wf program, nofun⟩⟩

/-- Settles O49: the empty program loads nothing, and its first step fetches an untouched cell, which is no opcode. -/
theorem firstStepFromResetRaises : Obligations.FirstStepFromResetRaises := ⟨rfl, rfl⟩

end Sys2Proof.Machine
end

section
/-!
Checked arithmetic (00_scope.md) and operand resolution (30_encoding.md) past their ranges: what leaves `Int64`, what
leaves the address space, and relative mode.
-/
namespace Sys2Proof.Machine

/-! ## Checked arithmetic -/

theorem inInt64_false_iff (v : Int) : inInt64 v = false ↔ v < -2 ^ 63 ∨ 2 ^ 63 ≤ v := by
  rw [← Bool.not_eq_true, inInt64_iff]
  omega

theorem narrow_fault_of_not_inInt64 {v : Int} (ip : Cell) (h : inInt64 v = false) :
    narrow .fault ip v = .error (.arithmeticOverflow ip) := by
  simp [narrow, h]

theorem narrow_wrap_of_not_inInt64 {v : Int} (ip : Cell) (h : inInt64 v = false) :
    narrow .wrap ip v = .ok (wrap64 v) := by
  simp [narrow, h]

/-- Settles O12: both operations narrow their exact result, which is kept in range, and outside it is the overflow error
or the wrapped value. -/
theorem checkedArithmeticFollowsTheOverflowMode : Obligations.CheckedArithmeticFollowsTheOverflowMode := by
  intro ip a b exact f hf
  have hnarrow : f = fun ov => narrow ov ip exact := by
    obtain ⟨rfl, rfl⟩ | ⟨rfl, rfl⟩ := hf <;> rfl
  subst hnarrow
  split
  next hrange =>
    have hin : inInt64 exact = true := (inInt64_iff _).mpr (by omega)
    exact fun ov => ⟨_, narrow_of_inInt64 ov ip hin, toInt_ofInt hin⟩
  next hrange =>
    have hout : inInt64 exact = false := (inInt64_false_iff _).mpr (by omega)
    exact ⟨narrow_fault_of_not_inInt64 ip hout, _, narrow_wrap_of_not_inInt64 ip hout, toInt_wrap64 exact⟩

/-- Adding a small number to `ip` narrows the exact sum (00_scope.md R11). -/
theorem add64_ofNat (ov : OverflowMode) (ip a : Cell) {k : Nat} (hk : k < 2 ^ 63) :
    add64 ov ip a (BitVec.ofNat 64 k) = narrow ov ip (a.toInt + k) := by
  rw [add64, toInt_ofNat hk]

/-- Settles O13: the advance narrows `ip + width`; a sum just past the top wraps to a negative value. -/
theorem advanceAddsTheWidth : Obligations.AdvanceAddsTheWidth := by
  intro s width hwidth hip
  have hadvance (ov : OverflowMode) : advance ov s width = narrow ov s.ip (s.ip.toInt + width) :=
    add64_ofNat ov s.ip s.ip (by omega)
  simp only [hadvance]
  split
  next htop =>
    have hin : inInt64 (s.ip.toInt + width) = true := (inInt64_iff _).mpr (by omega)
    exact fun ov => ⟨_, narrow_of_inInt64 ov s.ip hin, toInt_ofInt hin⟩
  next htop =>
    have hout : inInt64 (s.ip.toInt + width) = false := (inInt64_false_iff _).mpr (by omega)
    have hlt : s.ip.toInt < 2 ^ 63 := BitVec.toInt_lt
    have hwrap := toInt_wrap64 (s.ip.toInt + width)
    exact ⟨narrow_fault_of_not_inInt64 s.ip hout, _, narrow_wrap_of_not_inInt64 s.ip hout, by omega, by omega⟩

/-! ## Operand resolution -/

/-- In relative mode the effective address is the checked sum of the parameter cell and `rb` (30_encoding.md R59). -/
theorem effectiveAddress_relative (ov : OverflowMode) {s : State} {k : Nat} (hip : 0 ≤ s.ip.toInt)
    (htop : s.ip.toInt + k < 2 ^ 63) :
    effectiveAddress ov s k .relative =
      (narrow ov s.ip ((s.mem.read (s.ip.toNat + k)).toInt + s.rb.toInt)).bind (checkAddress s.ip) := by
  obtain ⟨p, hp, hpAddr⟩ := parameterCell_of_lt ov hip htop
  rw [effectiveAddress, hp, ← hpAddr]
  rfl

/-- In immediate mode the effective address is the parameter's own cell (30_encoding.md R60). -/
theorem effectiveAddress_immediate (ov : OverflowMode) {s : State} {k : Nat} (hip : 0 ≤ s.ip.toInt)
    (htop : s.ip.toInt + k < 2 ^ 63) :
    ∃ p, effectiveAddress ov s k .immediate = .ok p ∧ p.toNat = s.ip.toNat + k := by
  obtain ⟨p, hp, hpAddr⟩ := parameterCell_of_lt ov hip htop
  refine ⟨p, ?_, hpAddr⟩
  rw [effectiveAddress, hp]
  rfl

/-- A parameter whose own cell is an error is that error, whatever its mode (30_encoding.md R57). -/
theorem effectiveAddress_of_parameterCell_error {ov : OverflowMode} {s : State} {k : Nat} {e : VmError}
    (h : parameterCell ov s k = .error e) (m : Mode) : effectiveAddress ov s k m = .error e := by
  rw [effectiveAddress, h]
  rfl

/-- The parameter cell narrows `ip + k` and is checked as an address (30_encoding.md R57). -/
theorem parameterCell_eq (ov : OverflowMode) (s : State) {k : Nat} (hk : k < 2 ^ 63) :
    parameterCell ov s k = (narrow ov s.ip (s.ip.toInt + k)).bind (checkAddress s.ip) := by
  rw [parameterCell, add64_ofNat ov s.ip s.ip hk]

/-- Settles O15: the sum of the cell and `rb` is narrowed and then checked as an address. A sum of two cells that leaves
`Int64` at the top wraps to a negative value, and one that leaves it at the bottom to an address. -/
theorem relativeModeAddsTheRelativeBase : Obligations.RelativeModeAddsTheRelativeBase := by
  rintro s k sum hip htop hsum
  have haddr (ov : OverflowMode) := effectiveAddress_relative ov hip htop
  simp only [← hsum] at haddr
  have hcellLo : -2 ^ 63 ≤ (s.mem.read (s.ip.toNat + k)).toInt := BitVec.le_toInt _
  have hcellHi : (s.mem.read (s.ip.toNat + k)).toInt < 2 ^ 63 := BitVec.toInt_lt
  have hrbLo : -2 ^ 63 ≤ s.rb.toInt := BitVec.le_toInt _
  have hrbHi : s.rb.toInt < 2 ^ 63 := BitVec.toInt_lt
  have hwrap := toInt_wrap64 sum
  split
  next hover =>
    have hout := (inInt64_false_iff sum).mpr hover
    have hfault := haddr .fault
    rw [narrow_fault_of_not_inInt64 _ hout] at hfault
    have hwrapped := haddr .wrap
    rw [narrow_wrap_of_not_inInt64 _ hout, Except.bind] at hwrapped
    refine ⟨operand_of_error hfault, hfault, ?_⟩
    split
    next hsign =>
      rw [checkAddress_of_neg s.ip (by omega)] at hwrapped
      exact ⟨operand_of_error hwrapped, hwrapped⟩
    next hsign =>
      rw [checkAddress_of_nonneg s.ip (by omega)] at hwrapped
      exact ⟨operand_of_ok hwrapped, hwrapped⟩
  next hfits =>
    have hin : inInt64 sum = true := (inInt64_iff _).mpr (by omega)
    have hval : (Cell.ofInt sum).toInt = sum := toInt_ofInt hin
    simp only [narrow_of_inInt64 _ _ hin, Except.bind] at haddr
    split
    next hneg =>
      have hneg' : (Cell.ofInt sum).toInt < 0 := by omega
      simp only [checkAddress_of_neg s.ip hneg'] at haddr
      exact fun ov => ⟨operand_of_error (haddr ov), haddr ov⟩
    next hnonneg =>
      have hnonneg' : ¬ (Cell.ofInt sum).toInt < 0 := by omega
      simp only [checkAddress_of_nonneg s.ip hnonneg'] at haddr
      have hnat : (Cell.ofInt sum).toNat = sum.toNat := by
        have := toNat_of_nonneg hnonneg'
        omega
      exact fun ov => ⟨hnat ▸ operand_of_ok (haddr ov), _, haddr ov, hval⟩

/-- Settles O16: the operand is the cell at the parameter's own address. -/
theorem immediateModeReadsTheParameterCell : Obligations.ImmediateModeReadsTheParameterCell := by
  intro ov s k hip htop
  obtain ⟨p, hp, hpAddr⟩ := effectiveAddress_immediate ov hip htop
  exact ⟨⟨p, hp, hpAddr⟩, hpAddr ▸ operand_of_ok hp⟩

/-- Settles O17: the parameter cell's address leaves `Int64` at the top, and wraps to a negative value. -/
theorem parameterCellPastTheTopIsAnError : Obligations.ParameterCellPastTheTopIsAnError := by
  intro s k m hk hip htop
  have hcell (ov : OverflowMode) := parameterCell_eq ov s (k := k) (by omega)
  have hout : inInt64 (s.ip.toInt + k) = false := (inInt64_false_iff _).mpr (.inr htop)
  have hlt : s.ip.toInt < 2 ^ 63 := BitVec.toInt_lt
  have hwrap := toInt_wrap64 (s.ip.toInt + k)
  have hfault := hcell .fault
  rw [narrow_fault_of_not_inInt64 _ hout] at hfault
  have hwrapped := hcell .wrap
  rw [narrow_wrap_of_not_inInt64 _ hout, Except.bind, checkAddress_of_neg _ (by omega)] at hwrapped
  exact ⟨effectiveAddress_of_parameterCell_error hfault m, effectiveAddress_of_parameterCell_error hwrapped m⟩

end Sys2Proof.Machine
end

section
/-!
What each instruction does when its lines succeed (41_arithmetic.md to 45_relbase_halt.md).
-/
namespace Sys2Proof.Machine

theorem legalTarget_of_ne {m : Mode} (ip : Cell) (k : Nat) (h : m ≠ .immediate) : legalTarget ip k m = .ok () := by
  cases m with
  | immediate => exact absurd rfl h
  | position => rfl
  | relative => rfl

/-- Storing one cell and retiring, with the input queue consumed down to `q`. -/
theorem storedOneCell_write (s : State) (q : List Cell) (d v nip : Cell) :
    StoredOneCell s ((({ s with inQ := q } : State).write d v).retire nip) d v nip q where
  stored := Memory.read_write_same _ _ _
  elsewhere _ hx := Memory.read_write_other _ _ hx
  ip := rfl
  rb := rfl
  inQ := rfl
  outQ := rfl
  status := rfl
  fault := rfl

/-! ## The instructions of the shape R R W -/

section
variable {ov : OverflowMode} {m1 m2 m3 : Mode} {s : State} {a b d nip : Cell} (hm : m3 ≠ .immediate)
  (ha : operand ov s 1 m1 = .ok a) (hb : operand ov s 2 m2 = .ok b) (hd : writeTarget ov s 3 m3 = .ok d)
  (hn : advance ov s 4 = .ok nip)
include hm ha hb hd hn

/-- Once the operands, the target and the advance are there, only the result can raise. -/
theorem threeOperand_of_resolved (result : Cell → Cell → Except VmError Cell) :
    threeOperand ov result m1 m2 m3 s = orRaise s (result a b) fun v => .next ((s.write d v).retire nip) := by
  simp [threeOperand, legalTarget_of_ne s.ip 3 hm, ha, hb, hd, hn]

/-- A result that does not raise is stored. -/
theorem threeOperand_stores {result : Cell → Cell → Except VmError Cell} {v : Cell} (hv : result a b = .ok v) :
    ∃ t, threeOperand ov result m1 m2 m3 s = .next t ∧ StoredOneCell s t d v nip s.inQ := by
  refine ⟨_, ?_, storedOneCell_write s s.inQ d v nip⟩
  rw [threeOperand_of_resolved hm ha hb hd hn, hv, orRaise_ok]

/-- An error of the result is raised. -/
theorem threeOperand_raises {result : Cell → Cell → Except VmError Cell} {e : VmError} (hv : result a b = .error e) :
    threeOperand ov result m1 m2 m3 s = .next { s with fault := some e } := by
  rw [threeOperand_of_resolved hm ha hb hd hn, hv]
  rfl

end

/-- A narrowed result: the exact value is stored when it is in range, and else the overflow mode decides (decision
D8). -/
theorem threeOperand_narrow {m1 m2 m3 : Mode} {s : State} {a b d nip : Cell} {exact : Int}
    {result : Cell → Cell → Except VmError Cell} (hm : m3 ≠ .immediate)
    (ha : operand Config.overflowMode s 1 m1 = .ok a) (hb : operand Config.overflowMode s 2 m2 = .ok b)
    (hd : writeTarget Config.overflowMode s 3 m3 = .ok d) (hn : advance Config.overflowMode s 4 = .ok nip)
    (hresult : result a b = narrow Config.overflowMode s.ip exact) :
    if inInt64 exact = true then
      ∃ t, threeOperand Config.overflowMode result m1 m2 m3 s = .next t ∧
        StoredOneCell s t d (Cell.ofInt exact) nip s.inQ
    else
      match Config.overflowMode with
      | .fault => threeOperand Config.overflowMode result m1 m2 m3 s =
          .next { s with fault := some (.arithmeticOverflow s.ip) }
      | .wrap => ∃ t, threeOperand Config.overflowMode result m1 m2 m3 s = .next t ∧
          StoredOneCell s t d (wrap64 exact) nip s.inQ := by
  obtain ⟨hin, hr⟩ | ⟨hout, hov, hr⟩ | ⟨hout, hov, hr⟩ := narrow_cases Config.overflowMode s.ip exact
  · rw [if_pos hin]
    exact threeOperand_stores hm ha hb hd hn (hresult.trans hr)
  · rw [if_neg (by simp [hout])]
    have hraises := threeOperand_raises hm ha hb hd hn (hresult.trans hr)
    split
    next => exact hraises
    next hwrap => exact absurd (hov.symm.trans hwrap) (by decide)
  · rw [if_neg (by simp [hout])]
    have hstores := threeOperand_stores hm ha hb hd hn (hresult.trans hr)
    split
    next hfault => exact absurd (hov.symm.trans hfault) (by decide)
    next => exact hstores

/-- Settles O18: ADD narrows the exact sum. -/
theorem addStoresTheSum : Obligations.AddStoresTheSum :=
  fun _ _ _ _ _ _ _ _ hm ha hb hd hn => threeOperand_narrow hm ha hb hd hn rfl

/-- Settles O19: MUL narrows the exact product. -/
theorem mulStoresTheProduct : Obligations.MulStoresTheProduct :=
  fun _ _ _ _ _ _ _ _ hm ha hb hd hn => threeOperand_narrow hm ha hb hd hn rfl

theorem lessThanCell_eq (a b : Cell) : lessThanCell a b = if a.toInt < b.toInt then 1 else 0 := by
  simp [lessThanCell, truthCell]

theorem equalsCell_eq (a b : Cell) : equalsCell a b = if a = b then 1 else 0 := by
  simp [equalsCell, truthCell]

/-- Settles O20: LT's result never raises. -/
theorem ltStoresOneOrZero : Obligations.LtStoresOneOrZero := by
  intro m1 m2 m3 s a b d nip hm ha hb hd hn
  rw [← lessThanCell_eq]
  exact threeOperand_stores hm ha hb hd hn rfl

/-- Settles O21: EQ's result never raises, and two cells are the same just when their values are. -/
theorem eqStoresOneOrZero : Obligations.EqStoresOneOrZero := by
  intro m1 m2 m3 s a b d nip hm ha hb hd hn
  simp only [BitVec.toInt_inj, ← equalsCell_eq]
  exact threeOperand_stores hm ha hb hd hn rfl

/-! ## Input and output -/

/-- Once IN's target and advance are there, the queue decides. -/
theorem inUnder_of_resolved {ov : OverflowMode} {m1 : Mode} {s : State} {d nip : Cell} (hm : m1 ≠ .immediate)
    (hd : writeTarget ov s 1 m1 = .ok d) (hn : advance ov s 2 = .ok nip) :
    inUnder ov m1 s =
      match s.inQ with
      | [] => .next { s with status := .waitingForInput }
      | v :: rest => .next ((({ s with inQ := rest } : State).write d v).retire nip) := by
  rw [inUnder, legalTarget_of_ne s.ip 1 hm, hd, hn]
  rfl

/-- Settles O22: the head of the queue is the stored value. -/
theorem inStoresTheHeadOfTheInputQueue : Obligations.InStoresTheHeadOfTheInputQueue := by
  intro m1 _ _ s d nip v rest hm hd hn hq
  refine ⟨_, (inUnder_of_resolved hm hd hn).trans ?_, storedOneCell_write s rest d v nip⟩
  rw [hq]

/-- Settles O23: the empty queue suspends. -/
theorem inSuspendsOnAnEmptyQueue : Obligations.InSuspendsOnAnEmptyQueue := by
  intro m1 _ _ s d nip hm hd hn hq
  refine (inUnder_of_resolved hm hd hn).trans ?_
  rw [hq]

theorem outUnder_of_resolved {ov : OverflowMode} {m1 : Mode} {s : State} {v nip : Cell}
    (hv : operand ov s 1 m1 = .ok v) (hn : advance ov s 2 = .ok nip) :
    outUnder ov m1 s = .next ((s.pushOutput v).retire nip) := by
  simp [outUnder, hv, hn]

/-- Settles O24: OUT with its operand and advance resolved. -/
theorem outAppendsItsOperand : Obligations.OutAppendsItsOperand :=
  fun _ _ _ _ _ _ hv hn => outUnder_of_resolved hv hn

/-! ## Jumps, the relative base and HALT -/

theorem jumpWhen_of_taken {ov : OverflowMode} {taken : Cell → Bool} {m1 m2 : Mode} {s : State} {c target : Cell}
    (hc : operand ov s 1 m1 = .ok c) (ht : operand ov s 2 m2 = .ok target) (htaken : taken c = true) :
    jumpWhen ov taken m1 m2 s = .next (s.retire target) := by
  simp [jumpWhen, hc, ht, htaken]

theorem jumpWhen_of_not_taken {ov : OverflowMode} {taken : Cell → Bool} {m1 m2 : Mode} {s : State}
    {c target nip : Cell} (hc : operand ov s 1 m1 = .ok c) (ht : operand ov s 2 m2 = .ok target)
    (htaken : taken c = false) (hn : advance ov s 3 = .ok nip) : jumpWhen ov taken m1 m2 s = .next (s.retire nip) := by
  simp [jumpWhen, hc, ht, htaken, hn]

theorem toInt_eq_zero_iff (c : Cell) : c.toInt = 0 ↔ c = 0 := by
  rw [← BitVec.toInt_inj]
  rfl

/-- Settles O25: the condition's value is nonzero just when the cell is. -/
theorem jtJumpsWhenNonzero : Obligations.JtJumpsWhenNonzero := by
  intro m1 m2 _ s c target hc ht
  simp only [ne_eq, toInt_eq_zero_iff]
  split
  next hnonzero => exact jumpWhen_of_taken hc ht (decide_eq_true hnonzero)
  next hzero => exact fun nip hn => jumpWhen_of_not_taken hc ht (decide_eq_false hzero) hn

/-- Settles O26: the condition's value is zero just when the cell is. -/
theorem jfJumpsWhenZero : Obligations.JfJumpsWhenZero := by
  intro m1 m2 _ s c target hc ht
  simp only [toInt_eq_zero_iff]
  split
  next hzero => exact jumpWhen_of_taken hc ht (decide_eq_true hzero)
  next hnonzero => exact fun nip hn => jumpWhen_of_not_taken hc ht (decide_eq_false hnonzero) hn

/-- Once ARB's operand and advance are there, only the new base can raise. -/
theorem arbUnder_of_resolved {ov : OverflowMode} {m1 : Mode} {s : State} {v nip : Cell}
    (hv : operand ov s 1 m1 = .ok v) (hn : advance ov s 2 = .ok nip) :
    arbUnder ov m1 s = orRaise s (narrow ov s.ip (s.rb.toInt + v.toInt)) fun nrb =>
      .next (({ s with rb := nrb } : State).retire nip) := by
  simp [arbUnder, hv, hn, add64]

/-- Settles O27: ARB narrows the exact sum of the base and the operand. -/
theorem arbAddsToTheRelativeBase : Obligations.ArbAddsToTheRelativeBase := by
  intro m1 m2 m3 s v nip hv hn
  have hexec : exec (.arb m1 m2 m3) s = _ := arbUnder_of_resolved hv hn
  obtain ⟨hin, hr⟩ | ⟨hout, hov, hr⟩ | ⟨hout, hov, hr⟩ :=
    narrow_cases Config.overflowMode s.ip (s.rb.toInt + v.toInt)
  · rw [if_pos hin]
    rw [hr] at hexec
    exact ⟨_, toInt_ofInt hin, hexec⟩
  · rw [if_neg (by simp [hout]), hov]
    rw [hr] at hexec
    exact hexec
  · rw [if_neg (by simp [hout]), hov]
    rw [hr] at hexec
    exact hexec

/-! ## The step around an instruction (40_controller.md) -/

theorem fetchDecode_of_neg {s : State} (h : s.ip.toInt < 0) :
    fetchDecode s = .error (.illegalMemoryAccess s.ip s.ip) := by
  simp [fetchDecode, fetch, h, Except.bind]

theorem fetchDecode_of_decode_ok {s : State} {i : Instr} (hip : 0 ≤ s.ip.toInt)
    (h : decode (s.mem.read s.ip.toNat) = .ok i) : fetchDecode s = .ok i := by
  rw [fetchDecode, fetch_of_nonneg (Int.not_lt.mpr hip), Except.bind, State.read_eq, h]

theorem fetchDecode_of_decode_error {s : State} {e : DecodeError} (hip : 0 ≤ s.ip.toInt)
    (h : decode (s.mem.read s.ip.toNat) = .error e) : fetchDecode s = .error (decodeFault s.ip e) := by
  rw [fetchDecode, fetch_of_nonneg (Int.not_lt.mpr hip), Except.bind, State.read_eq, h]

/-- A live step that does not get to an instruction raises. -/
theorem step_of_fetchDecode_error {s : State} {e : VmError} (hlive : s.isLive) (h : fetchDecode s = .error e) :
    step s = .next { s with fault := some e } := by
  rw [step_of_live hlive.1 hlive.2, h]
  rfl

theorem step_of_fetchDecode_ok {s : State} {i : Instr} (hlive : s.isLive) (h : fetchDecode s = .ok i) :
    step s = exec i s := by
  rw [step_of_live hlive.1 hlive.2, h, orRaise_ok]

/-- Settles O30: the fetch raises. -/
theorem negativeIpRaisesAtFetch : Obligations.NegativeIpRaisesAtFetch :=
  fun _ hlive hip => step_of_fetchDecode_error hlive (fetchDecode_of_neg hip)

/-- Settles O31: the decoder's error is raised with `ip` added. -/
theorem undecodableWordRaises : Obligations.UndecodableWordRaises :=
  fun _ hlive hip =>
    ⟨fun _ h => step_of_fetchDecode_error hlive (fetchDecode_of_decode_error hip h),
     fun _ _ h => step_of_fetchDecode_error hlive (fetchDecode_of_decode_error hip h)⟩

/-- Settles O42: the step executes what is fetched and decoded. -/
theorem stepRunsTheDecodedInstruction : Obligations.StepRunsTheDecodedInstruction :=
  fun _ _ hlive hip h => step_of_fetchDecode_ok hlive (fetchDecode_of_decode_ok hip h)

theorem exists_eq_halt_of_number {i : Instr} (h : i.opcode.number = 99) : ∃ m1 m2 m3, i = .halt m1 m2 m3 := by
  cases i with
  | halt m1 m2 m3 => exact ⟨m1, m2, m3, rfl⟩
  | _ => exact absurd h (by simp [Instr.opcode, Opcode.number])

/-- Settles O28: the decoder's first invalid field is the first mode digit above 2, and a word of opcode 99 without one
decodes to HALT. -/
theorem haltTerminatesAndStays : Obligations.HaltTerminatesAndStays := by
  refine ⟨fun _ _ _ _ => rfl, fun s d1 d2 d3 hlive hip h1 h2 hword => ?_⟩
  have hop : (99 : Int) = opcodeField (s.mem.read s.ip.toNat) := by
    rw [opcodeField_of_nonneg (by omega)]
    omega
  have hdec := decodeRefusesAtTheFirstInvalidField _ 99 d1 d2 d3 hop (by omega) (by omega) (by omega)
  have hraise {k m : Nat} (h : decode (s.mem.read s.ip.toNat) = .error (.invalidParameterMode k m)) :=
    (undecodableWordRaises s hlive hip).2 k m h
  rw [if_neg (by decide)] at hdec
  split
  next hvalid =>
    rw [if_neg (by omega), if_neg (by omega), if_neg (by omega), if_neg (by simp), if_neg (by simp)] at hdec
    obtain ⟨i, hi, hnumber, -⟩ := hdec
    obtain ⟨m1, m2, m3, rfl⟩ := exists_eq_halt_of_number hnumber
    exact ⟨stepRunsTheDecodedInstruction s _ hlive hip hi, step_of_terminated hlive.1 rfl⟩
  next hinvalid =>
    by_cases hd1 : 3 ≤ d1
    · rw [if_pos (by omega)] at hdec
      exact ⟨1, d1, .inl ⟨rfl, rfl⟩, hd1, hraise hdec⟩
    rw [if_neg (by omega)] at hdec
    by_cases hd2 : 3 ≤ d2
    · rw [if_pos (by omega)] at hdec
      exact ⟨2, d2, .inr (.inl ⟨rfl, rfl⟩), hd2, hraise hdec⟩
    rw [if_neg (by omega), if_pos (by omega)] at hdec
    exact ⟨3, d3, .inr (.inr ⟨rfl, rfl⟩), by omega, hraise hdec⟩

end Sys2Proof.Machine
end

section
/-!
Errors (60_exceptions.md): the first failing check of an instruction is the error it raises, and every raised error is
well formed and reports `ip`.
-/
namespace Sys2Proof.Machine

/-! ## The first failing check (R110) -/

/-- The outcome raises the first error of a list of checks, and without one it keeps the fault mark. -/
def RaisesFirst (s : State) (checks : List (Option VmError)) (o : Host.Outcome State Fault Refusal) : Prop :=
  match checks.findSome? id with
  | some e => o = .next { s with fault := some e }
  | none => ∃ t, o = .next t ∧ t.fault = s.fault

theorem raisesFirst_next {s t : State} (h : t.fault = s.fault) : RaisesFirst s [] (.next t) := ⟨t, rfl, h⟩

/-- One line that can raise is one check. -/
theorem raisesFirst_orRaise {α : Type} {s : State} {r : Except VmError α} {checks : List (Option VmError)}
    {go : α → Host.Outcome State Fault Refusal} (h : ∀ v, r = .ok v → RaisesFirst s checks (go v)) :
    RaisesFirst s (errorOf r :: checks) (orRaise s r go) := by
  cases r with
  | ok v => exact h v rfl
  | error e => exact rfl

/-- A check that never fails may stand at the end. -/
theorem raisesFirst_append_none {s : State} {checks : List (Option VmError)} {o : Host.Outcome State Fault Refusal} :
    RaisesFirst s (checks ++ [none]) o ↔ RaisesFirst s checks o := by
  simp [RaisesFirst, List.findSome?_append]

theorem threeOperand_raisesFirst (ov : OverflowMode) (result : Cell → Cell → Except VmError Cell) (m1 m2 m3 : Mode)
    (s : State) :
    RaisesFirst s
      [errorOf (legalTarget s.ip 3 m3), errorOf (operand ov s 1 m1), errorOf (operand ov s 2 m2),
        errorOf (writeTarget ov s 3 m3), errorOf (advance ov s 4),
        errorOf (result (valueOf (operand ov s 1 m1)) (valueOf (operand ov s 2 m2)))]
      (threeOperand ov result m1 m2 m3 s) := by
  refine raisesFirst_orRaise fun _ _ => raisesFirst_orRaise fun a ha => raisesFirst_orRaise fun b hb =>
    raisesFirst_orRaise fun _ _ => raisesFirst_orRaise fun _ _ => ?_
  rw [ha, hb]
  exact raisesFirst_orRaise fun _ _ => raisesFirst_next rfl

/-- The comparisons' results never raise. -/
theorem comparison_raisesFirst (ov : OverflowMode) (result : Cell → Cell → Cell) (m1 m2 m3 : Mode) (s : State) :
    RaisesFirst s
      [errorOf (legalTarget s.ip 3 m3), errorOf (operand ov s 1 m1), errorOf (operand ov s 2 m2),
        errorOf (writeTarget ov s 3 m3), errorOf (advance ov s 4)]
      (threeOperand ov (fun a b => .ok (result a b)) m1 m2 m3 s) :=
  raisesFirst_append_none.mp (threeOperand_raisesFirst ov (fun a b => .ok (result a b)) m1 m2 m3 s)

theorem jumpWhen_raisesFirst (ov : OverflowMode) (taken : Cell → Bool) (m1 m2 : Mode) (s : State) :
    RaisesFirst s
      [errorOf (operand ov s 1 m1), errorOf (operand ov s 2 m2),
        if taken (valueOf (operand ov s 1 m1)) then none else errorOf (advance ov s 3)]
      (jumpWhen ov taken m1 m2 s) := by
  refine raisesFirst_orRaise fun c hc => raisesFirst_orRaise fun target _ => ?_
  have hcheck : (if taken (valueOf (operand ov s 1 m1)) then none else errorOf (advance ov s 3)) =
      errorOf (if taken c then .ok target else advance ov s 3) := by
    rw [hc, valueOf]
    split <;> rfl
  rw [hcheck]
  exact raisesFirst_orRaise fun _ _ => raisesFirst_next rfl

theorem inUnder_raisesFirst (ov : OverflowMode) (m1 : Mode) (s : State) :
    RaisesFirst s [errorOf (legalTarget s.ip 1 m1), errorOf (writeTarget ov s 1 m1), errorOf (advance ov s 2)]
      (inUnder ov m1 s) := by
  refine raisesFirst_orRaise fun _ _ => raisesFirst_orRaise fun _ _ => raisesFirst_orRaise fun _ _ => ?_
  split
  · exact raisesFirst_next rfl
  · exact raisesFirst_next rfl

theorem outUnder_raisesFirst (ov : OverflowMode) (m1 : Mode) (s : State) :
    RaisesFirst s [errorOf (operand ov s 1 m1), errorOf (advance ov s 2)] (outUnder ov m1 s) :=
  raisesFirst_orRaise fun _ _ => raisesFirst_orRaise fun _ _ => raisesFirst_next rfl

theorem arbUnder_raisesFirst (ov : OverflowMode) (m1 : Mode) (s : State) :
    RaisesFirst s
      [errorOf (operand ov s 1 m1), errorOf (advance ov s 2),
        errorOf (add64 ov s.ip s.rb (valueOf (operand ov s 1 m1)))]
      (arbUnder ov m1 s) := by
  refine raisesFirst_orRaise fun v hv => raisesFirst_orRaise fun _ _ => ?_
  rw [hv]
  exact raisesFirst_orRaise fun _ _ => raisesFirst_next rfl

theorem exec_raisesFirst (i : Instr) (s : State) : RaisesFirst s (executeChecks i s) (exec i s) := by
  cases i with
  | add => exact threeOperand_raisesFirst ..
  | mul => exact threeOperand_raisesFirst ..
  | lt => exact comparison_raisesFirst ..
  | eq => exact comparison_raisesFirst ..
  | inp => exact inUnder_raisesFirst ..
  | out => exact outUnder_raisesFirst ..
  | jt m1 m2 =>
    have h := jumpWhen_raisesFirst Config.overflowMode isNonzero m1 m2 s
    simp only [isNonzero, decide_eq_true_eq] at h
    exact h
  | jf m1 m2 =>
    have h := jumpWhen_raisesFirst Config.overflowMode isZero m1 m2 s
    simp only [isZero, decide_eq_true_eq] at h
    exact h
  | arb => exact arbUnder_raisesFirst ..
  | halt => exact raisesFirst_next rfl

/-- Settles O29, instruction by instruction: each line that can raise is one check. -/
theorem firstFailingCheckIsRaised : Obligations.FirstFailingCheckIsRaised := exec_raisesFirst

/-- An executed instruction raises one of its checks' errors, or completes and keeps the fault mark. -/
theorem exec_outcome (i : Instr) (s : State) :
    (∃ e, some e ∈ executeChecks i s ∧ exec i s = .next { s with fault := some e }) ∨
    ∃ t, exec i s = .next t ∧ t.fault = s.fault := by
  have h := exec_raisesFirst i s
  unfold RaisesFirst at h
  split at h
  next e he =>
    obtain ⟨c, hc, rfl⟩ := List.exists_of_findSome?_eq_some he
    exact .inl ⟨e, hc, h⟩
  next => exact .inr h

/-- Settles O34: an instruction answers whether a check fails or not, and so does a step that gets to one. -/
theorem everyStepWithoutFaultMarkAnswers : Obligations.EveryStepWithoutFaultMarkAnswers := by
  have hexec (i : Instr) (s : State) : ∃ t, exec i s = .next t := by
    obtain ⟨e, -, h⟩ | ⟨t, h, -⟩ := exec_outcome i s
    · exact ⟨_, h⟩
    · exact ⟨t, h⟩
  refine ⟨hexec, fun s hs => ?_⟩
  by_cases hst : s.status = .terminated
  · exact ⟨s, step_of_terminated hs hst⟩
  · cases hi : fetchDecode s with
    | ok i =>
      rw [step_of_fetchDecode_ok ⟨hs, hst⟩ hi]
      exact hexec i s
    | error e => exact ⟨_, step_of_fetchDecode_error ⟨hs, hst⟩ hi⟩

/-! ## Raised errors are well formed (R104 to R108) -/

/-- The error may be raised at `ip`: its fields are those the spec allows, and it reports `ip`. -/
def VmError.RaisedAt (ip : Cell) (e : VmError) : Prop := e.wf ∧ e.ip = ip

theorem opcodeField_bounds (w : Cell) : -99 ≤ opcodeField w ∧ opcodeField w ≤ 99 := by
  by_cases hneg : w.toInt < 0
  · have := opcodeField_bounds_of_neg hneg
    omega
  · rw [opcodeField_of_nonneg (Int.not_lt.mp hneg)]
    omega

/-- The decoder's error reports the first invalid field, whose value is out of its range (R105, R106). -/
theorem decodeFault_raisedAt {w : Cell} {e : DecodeError} (h : decode w = .error e) (ip : Cell) :
    (decodeFault ip e).RaisedAt ip := by
  have hdec := decodeRefusesAtTheFirstInvalidField w _ _ _ _ rfl rfl rfl rfl
  rw [h] at hdec
  split at hdec
  next hunknown =>
    cases hdec
    have hbounds := opcodeField_bounds w
    change opcodeField w ∉ _ at hunknown
    have hne : opcodeField w ≠ 99 := by
      intro h99
      rw [h99] at hunknown
      exact hunknown (by decide)
    have hle : opcodeField w ≤ 98 := by omega
    exact ⟨⟨hbounds.1, hle, Opcode.ofNumber_eq_none hunknown⟩, rfl⟩
  split at hdec
  next =>
    cases hdec
    exact ⟨.inl ⟨.inl rfl, by omega, by omega⟩, rfl⟩
  split at hdec
  next =>
    cases hdec
    exact ⟨.inl ⟨.inr rfl, by omega, by omega⟩, rfl⟩
  split at hdec
  next =>
    cases hdec
    exact ⟨.inr (.inl ⟨rfl, by omega⟩), rfl⟩
  split at hdec
  next =>
    cases hdec
    exact ⟨.inr (.inr ⟨.inr rfl, rfl⟩), rfl⟩
  split at hdec
  next =>
    cases hdec
    exact ⟨.inr (.inr ⟨.inl rfl, rfl⟩), rfl⟩
  next =>
    obtain ⟨i, hi, -⟩ := hdec
    cases hi

theorem narrow_raisedAt {ip : Cell} {v : Int} {e : VmError} (h : narrow Config.overflowMode ip v = .error e) :
    e.RaisedAt ip := by
  obtain ⟨rfl, hov, -⟩ := narrow_error h
  exact ⟨hov, rfl⟩

theorem checkAddress_raisedAt {ip a : Cell} {e : VmError} (h : checkAddress ip a = .error e) : e.RaisedAt ip := by
  obtain ⟨rfl, hneg⟩ := checkAddress_error h
  exact ⟨hneg, rfl⟩

theorem effectiveAddress_raisedAt {s : State} {k : Nat} {m : Mode} {e : VmError}
    (h : effectiveAddress Config.overflowMode s k m = .error e) : e.RaisedAt s.ip := by
  obtain h | ⟨p, -, h⟩ := bind_error h
  · obtain h | ⟨q, -, h⟩ := bind_error h
    · exact narrow_raisedAt h
    · exact checkAddress_raisedAt h
  cases m with
  | position => exact checkAddress_raisedAt h
  | immediate => cases h
  | relative =>
    obtain h | ⟨q, -, h⟩ := bind_error h
    · exact narrow_raisedAt h
    · exact checkAddress_raisedAt h

theorem operand_raisedAt {s : State} {k : Nat} {m : Mode} {e : VmError}
    (h : operand Config.overflowMode s k m = .error e) : e.RaisedAt s.ip := by
  obtain h | ⟨a, -, h⟩ := bind_error h
  · exact effectiveAddress_raisedAt h
  · cases h

theorem legalTarget_raisedAt {ip : Cell} {k : Nat} {m : Mode} {e : VmError} (hk : k = 1 ∨ k = 3)
    (h : legalTarget ip k m = .error e) : e.RaisedAt ip := by
  cases m with
  | immediate =>
    cases h
    exact ⟨.inr (.inr ⟨hk, rfl⟩), rfl⟩
  | position => cases h
  | relative => cases h

/-- Whatever error the check finds may be raised at `ip`. -/
def SoundCheck (ip : Cell) (c : Option VmError) : Prop := ∀ e, c = some e → e.RaisedAt ip

theorem soundCheck_none (ip : Cell) : SoundCheck ip none := fun _ h => nomatch h

theorem soundCheck_errorOf {α : Type} {ip : Cell} {r : Except VmError α} (h : ∀ e, r = .error e → e.RaisedAt ip) :
    SoundCheck ip (errorOf r) := by
  cases r with
  | ok v => exact soundCheck_none ip
  | error e => exact fun e' he => h e' (congrArg Except.error (Option.some.inj he))

theorem soundCheck_ite {ip : Cell} {p : Prop} [Decidable p] {c d : Option VmError} (hc : SoundCheck ip c)
    (hd : SoundCheck ip d) : SoundCheck ip (if p then c else d) := by
  split
  · exact hc
  · exact hd

section
variable (s : State) (k : Nat) (m : Mode)

theorem soundCheck_legalTarget (hk : k = 1 ∨ k = 3) : SoundCheck s.ip (errorOf (legalTarget s.ip k m)) :=
  soundCheck_errorOf fun _ => legalTarget_raisedAt hk

theorem soundCheck_operand : SoundCheck s.ip (errorOf (operand Config.overflowMode s k m)) :=
  soundCheck_errorOf fun _ => operand_raisedAt

theorem soundCheck_writeTarget : SoundCheck s.ip (errorOf (writeTarget Config.overflowMode s k m)) :=
  soundCheck_errorOf fun _ => effectiveAddress_raisedAt

theorem soundCheck_advance : SoundCheck s.ip (errorOf (advance Config.overflowMode s k)) :=
  soundCheck_errorOf fun _ => narrow_raisedAt

theorem soundCheck_add64 (a b : Cell) : SoundCheck s.ip (errorOf (add64 Config.overflowMode s.ip a b)) :=
  soundCheck_errorOf fun _ => narrow_raisedAt

theorem soundCheck_mul64 (a b : Cell) : SoundCheck s.ip (errorOf (mul64 Config.overflowMode s.ip a b)) :=
  soundCheck_errorOf fun _ => narrow_raisedAt

end

/-- Every check of every instruction finds only errors that may be raised at `ip`. -/
theorem soundCheck_of_mem_executeChecks (i : Instr) (s : State) : ∀ c ∈ executeChecks i s, SoundCheck s.ip c := by
  cases i <;>
    simp [executeChecks, soundCheck_legalTarget, soundCheck_operand, soundCheck_writeTarget, soundCheck_advance,
      soundCheck_add64, soundCheck_mul64, soundCheck_ite, soundCheck_none]

theorem fetchDecode_raisedAt {s : State} {e : VmError} (h : fetchDecode s = .error e) : e.RaisedAt s.ip := by
  obtain ⟨hneg, rfl⟩ | ⟨-, de, hde, rfl⟩ := fetchDecode_error h
  · exact ⟨hneg, rfl⟩
  · exact decodeFault_raisedAt hde s.ip

/-! ## What a step can do, its error told from its completion -/

/-- All a step that answers a next state can do: nothing in a Terminated machine, raise an error that may be raised at
`ip`, or complete the decoded instruction without a fault mark. -/
theorem step_outcome {s t : State} (h : step s = .next t) :
    s.fault = none ∧
    ((s.status = .terminated ∧ t = s) ∨
     (s.status ≠ .terminated ∧ ∃ e, e.RaisedAt s.ip ∧ t = { s with fault := some e }) ∨
     (s.status ≠ .terminated ∧ ∃ i, fetchDecode s = .ok i ∧ exec i s = .next t ∧ t.fault = none)) := by
  obtain ⟨hs, ⟨hst, rfl⟩ | ⟨hst, e, he, rfl⟩ | ⟨hst, i, hi, hexec⟩⟩ := step_next h
  · exact ⟨hs, .inl ⟨hst, rfl⟩⟩
  · exact ⟨hs, .inr (.inl ⟨hst, e, fetchDecode_raisedAt he, rfl⟩)⟩
  · obtain ⟨e, hmem, hraise⟩ | ⟨u, hu, hfault⟩ := exec_outcome i s
    · obtain rfl := Host.Outcome.next.inj (hexec.symm.trans hraise)
      exact ⟨hs, .inr (.inl ⟨hst, e, soundCheck_of_mem_executeChecks i s _ hmem e rfl, rfl⟩)⟩
    · obtain rfl := Host.Outcome.next.inj (hexec.symm.trans hu)
      exact ⟨hs, .inr (.inr ⟨hst, i, hi, hexec, hfault.trans hs⟩)⟩

/-- A step that sets the fault mark changes nothing else (60_exceptions.md R101). -/
theorem step_of_fault {s t : State} {e : VmError} (h : step s = .next t) (he : t.fault = some e) :
    t = { s with fault := some e } ∧ s.status ≠ .terminated := by
  obtain ⟨hs, ⟨-, rfl⟩ | ⟨hst, e', -, rfl⟩ | ⟨-, i, -, -, hnone⟩⟩ := step_outcome h
  · rw [hs] at he
    cases he
  · cases he
    exact ⟨rfl, hst⟩
  · rw [hnone] at he
    cases he

/-- An effect of an instruction keeps memory canonical: every store is inside the address space. -/
theorem ExecEffect.mem_wf {s t : State} (h : ExecEffect s t) (hm : Memory.wf s.mem) : Memory.wf t.mem := by
  cases h with
  | stored d v nip hd => exact Memory.write_wf v hm (toNat_lt_of_nonneg hd)
  | consumed d v nip rest _ hd => exact Memory.write_wf v hm (toNat_lt_of_nonneg hd)
  | _ => exact hm

/-- Settles O45: a raising step keeps memory and marks an error that may be raised at the `ip` it keeps; a completed
instruction keeps memory canonical and sets no mark. -/
theorem everyStepKeepsTheInvariant : Obligations.EveryStepKeepsTheInvariant := by
  intro s t hinv h
  obtain ⟨-, ⟨-, rfl⟩ | ⟨hst, e, ⟨hwf, hip⟩, rfl⟩ | ⟨-, i, -, hexec, hnone⟩⟩ := step_outcome h
  · exact hinv
  · refine ⟨hinv.mem_wf, fun e' he' => ?_⟩
    cases he'
    exact ⟨hwf, hip, hst⟩
  · refine ⟨(exec_effect hexec).mem_wf hinv.mem_wf, fun e he => ?_⟩
    rw [hnone] at he
    cases he

end Sys2Proof.Machine
end

section
/-!
How each instruction completes, and what follows of the whole machine: the frames of the instructions, the registers,
the queues, the status table, and a store seen by the next fetch.
-/
namespace Sys2Proof.Machine

/-! ## Completions -/

/-- How an instruction that does not raise changes the state, told by the instruction. -/
inductive Completes (s : State) : Instr → State → Prop
  /-- ADD, MUL, LT and EQ store their value and go on behind themselves -/
  | stored {i : Instr} {d v nip : Cell} (hi : i.opcode ∈ [Opcode.add, .mul, .lt, .eq])
      (hd : storeAddress i s = some (.ok d)) (hv : storedValue i s = some v)
      (hn : advance Config.overflowMode s i.opcode.width = .ok nip) : Completes s i ((s.write d v).retire nip)
  /-- IN stores the head of the input queue -/
  | consumed {m1 m2 m3 : Mode} {d v nip : Cell} {rest : List Cell}
      (hd : writeTarget Config.overflowMode s 1 m1 = .ok d) (hn : advance Config.overflowMode s 2 = .ok nip)
      (hq : s.inQ = v :: rest) :
      Completes s (.inp m1 m2 m3) ((({ s with inQ := rest } : State).write d v).retire nip)
  /-- IN finds the input queue empty, its target and advance resolved -/
  | suspended {m1 m2 m3 : Mode} {d nip : Cell} (hd : writeTarget Config.overflowMode s 1 m1 = .ok d)
      (hn : advance Config.overflowMode s 2 = .ok nip) (hq : s.inQ = []) :
      Completes s (.inp m1 m2 m3) { s with status := .waitingForInput }
  /-- OUT appends an output -/
  | emitted {m1 m2 m3 : Mode} {v nip : Cell} (hn : advance Config.overflowMode s 2 = .ok nip) :
      Completes s (.out m1 m2 m3) ((s.pushOutput v).retire nip)
  /-- JT and JF change the instruction pointer only -/
  | jumped {i : Instr} {nip : Cell} (hi : i.opcode = .jt ∨ i.opcode = .jf) (hd : storeAddress i s = none) :
      Completes s i (s.retire nip)
  /-- ARB changes the relative base -/
  | rebased {m1 m2 m3 : Mode} {nrb nip : Cell} (hn : advance Config.overflowMode s 2 = .ok nip) :
      Completes s (.arb m1 m2 m3) (({ s with rb := nrb } : State).retire nip)
  /-- HALT terminates -/
  | halted {m1 m2 m3 : Mode} : Completes s (.halt m1 m2 m3) { s with status := .terminated }

/-- An R R W instruction completes by storing what its result function computes. -/
theorem threeOperand_completes {i : Instr} {result : Cell → Cell → Except VmError Cell} {m1 m2 m3 : Mode} {s t : State}
    (hi : i.opcode ∈ [Opcode.add, .mul, .lt, .eq]) (hwidth : i.opcode.width = 4)
    (haddr : storeAddress i s = some (writeTarget Config.overflowMode s 3 m3))
    (hvalue : storedValue i s = some (valueOf (result (valueOf (operand Config.overflowMode s 1 m1))
      (valueOf (operand Config.overflowMode s 2 m2)))))
    (h : threeOperand Config.overflowMode result m1 m2 m3 s = .next t) :
    (∃ e, t = { s with fault := some e }) ∨ Completes s i t := by
  obtain hraise | ⟨a, b, d, nip, v, ha, hb, hd, hn, hv, rfl⟩ := threeOperand_next h
  · exact .inl hraise
  · rw [hd] at haddr
    rw [ha, hb, valueOf, valueOf, hv, valueOf] at hvalue
    exact .inr (.stored hi haddr hvalue (hwidth ▸ hn))

/-- A jump completes by retiring. -/
theorem jumpWhen_completes {i : Instr} {taken : Cell → Bool} {m1 m2 : Mode} {s t : State}
    (hi : i.opcode = .jt ∨ i.opcode = .jf) (hd : storeAddress i s = none)
    (h : jumpWhen Config.overflowMode taken m1 m2 s = .next t) :
    (∃ e, t = { s with fault := some e }) ∨ Completes s i t := by
  obtain hraise | ⟨_, _, nip, -, -, -, rfl⟩ := jumpWhen_next h
  · exact .inl hraise
  · exact .inr (.jumped hi hd)

/-- An executed instruction raises or completes. -/
theorem exec_next {i : Instr} {s t : State} (h : exec i s = .next t) :
    (∃ e, t = { s with fault := some e }) ∨ Completes s i t := by
  cases i with
  | add => exact threeOperand_completes (by simp [Instr.opcode]) rfl rfl rfl h
  | mul => exact threeOperand_completes (by simp [Instr.opcode]) rfl rfl rfl h
  | lt => exact threeOperand_completes (by simp [Instr.opcode]) rfl rfl (by rw [valueOf, lessThanCell_eq]; rfl) h
  | eq => exact threeOperand_completes (by simp [Instr.opcode]) rfl rfl (by rw [valueOf, equalsCell_eq]; rfl) h
  | jt => exact jumpWhen_completes (.inl rfl) rfl h
  | jf => exact jumpWhen_completes (.inr rfl) rfl h
  | inp =>
    obtain hraise | ⟨d, nip, hd, hn, ⟨hq, rfl⟩ | ⟨v, rest, hq, rfl⟩⟩ := inUnder_next h
    · exact .inl hraise
    · exact .inr (.suspended hd hn hq)
    · exact .inr (.consumed hd hn hq)
  | out =>
    obtain hraise | ⟨v, nip, -, hn, rfl⟩ := outUnder_next h
    · exact .inl hraise
    · exact .inr (.emitted hn)
  | arb =>
    obtain hraise | ⟨_, nip, nrb, -, hn, -, rfl⟩ := arbUnder_next h
    · exact .inl hraise
    · exact .inr (.rebased hn)
  | halt =>
    obtain rfl := Host.Outcome.next.inj h
    exact .inr .halted

/-- An instruction that leaves no fault mark completed. -/
theorem completes_of_exec {i : Instr} {s t : State} (h : exec i s = .next t) (ht : t.fault = none) :
    Completes s i t := by
  obtain ⟨e, rfl⟩ | hc := exec_next h
  · cases ht
  · exact hc

/-- All a step that answers a next state can do, its completion told by the instruction. -/
theorem step_completes {s t : State} (h : step s = .next t) :
    (s.status = .terminated ∧ t = s) ∨
    (s.status ≠ .terminated ∧ ∃ e, t = { s with fault := some e }) ∨
    (s.status ≠ .terminated ∧ t.fault = none ∧ ∃ i, fetchDecode s = .ok i ∧ Completes s i t) := by
  obtain ⟨-, hdone | ⟨hst, e, -, ht⟩ | ⟨hst, i, hi, hexec, hnone⟩⟩ := step_outcome h
  · exact .inl hdone
  · exact .inr (.inl ⟨hst, e, ht⟩)
  · exact .inr (.inr ⟨hst, hnone, i, hi, completes_of_exec hexec hnone⟩)

/-! ## Frames -/

/-- Settles O35: the one store goes to the resolved target, and an error changes only the fault mark. -/
theorem storingInstructionsFrame : Obligations.StoringInstructionsFrame := by
  intro m1 m2 m3 i s t hi h
  have hfacts : storeAddress i s = some (writeTarget Config.overflowMode s 3 m3) ∧
      i.opcode ∈ [Opcode.add, .mul, .lt, .eq] := by
    simp only [List.mem_cons, List.not_mem_nil, or_false] at hi
    obtain rfl | rfl | rfl | rfl := hi <;> exact ⟨rfl, by simp [Instr.opcode]⟩
  obtain ⟨haddr, hop⟩ := hfacts
  obtain ⟨e, rfl⟩ | hc := exec_next h
  · exact ⟨rfl, rfl, rfl, fun _ _ _ _ => rfl, fun _ _ => rfl⟩
  · cases hc with
    | stored _ hd =>
      have htarget := Option.some.inj (haddr.symm.trans hd)
      refine ⟨rfl, rfl, rfl, fun d' hd' x hx => ?_, fun e he => ?_⟩
      · obtain rfl := Except.ok.inj (hd'.symm.trans htarget)
        exact Memory.read_write_other _ _ hx
      · cases he.symm.trans htarget
    | jumped _ hnone => cases haddr.symm.trans hnone
    | _ => simp [Instr.opcode] at hop

/-- Settles O36: IN stores to its resolved target only when there is input. -/
theorem inFrame : Obligations.InFrame := by
  intro m1 m2 m3 s t h
  obtain ⟨e, rfl⟩ | hc := exec_next h
  · exact ⟨rfl, rfl, .inl rfl, fun _ _ _ _ => rfl, fun _ _ => rfl, fun _ => ⟨rfl, rfl⟩⟩
  · cases hc with
    | stored hi => simp [Instr.opcode] at hi
    | consumed hd hn hq =>
      refine ⟨rfl, rfl, .inr (by rw [hq]; rfl), fun d' hd' x hx => ?_, fun e he => ?_, fun hempty => ?_⟩
      · obtain rfl := Except.ok.inj (hd'.symm.trans hd)
        exact Memory.read_write_other _ _ hx
      · cases he.symm.trans hd
      · cases hempty.symm.trans hq
    | suspended => exact ⟨rfl, rfl, .inl rfl, fun _ _ _ _ => rfl, fun _ _ => rfl, fun _ => ⟨rfl, rfl⟩⟩
    | jumped hi => simp [Instr.opcode] at hi

/-- Settles O37: none of the five stores, and each changes the components of its own completion only. -/
theorem nonStoringInstructionsFrame : Obligations.NonStoringInstructionsFrame := by
  intro m1 m2 m3 i s t hi h
  have hop : i.opcode ∈ [Opcode.out, .jt, .jf, .arb, .halt] := by
    simp only [List.mem_cons, List.not_mem_nil, or_false] at hi
    obtain rfl | rfl | rfl | rfl | rfl := hi <;> simp [Instr.opcode]
  obtain ⟨e, rfl⟩ | hc := exec_next h
  · exact ⟨rfl, rfl, fun _ => rfl, fun _ => rfl, fun _ => rfl⟩
  · cases hc with
    | stored hi =>
      simp only [List.mem_cons, List.not_mem_nil, or_false] at hi
      obtain hi | hi | hi | hi := hi <;> simp [hi] at hop
    | consumed => simp [Instr.opcode] at hop
    | suspended => simp [Instr.opcode] at hop
    | emitted => exact ⟨rfl, rfl, fun hne => absurd rfl hne, fun _ => rfl, nofun⟩
    | jumped hi =>
      refine ⟨rfl, rfl, fun _ => rfl, fun _ => rfl, fun hhalt => ?_⟩
      simp [hhalt] at hi
    | rebased => exact ⟨rfl, rfl, fun _ => rfl, fun hne => absurd rfl hne, nofun⟩
    | halted => exact ⟨rfl, rfl, fun _ => rfl, fun _ => rfl, fun _ => rfl⟩

/-! ## The whole machine -/

/-- Settles O38: of all completions only ARB's touches the base. -/
theorem onlyArbChangesTheRelativeBase : Obligations.OnlyArbChangesTheRelativeBase := by
  intro s t h hrb
  obtain ⟨-, rfl⟩ | ⟨-, e, rfl⟩ | ⟨-, hnone, i, hi, hc⟩ := step_completes h
  · exact absurd rfl hrb
  · exact absurd rfl hrb
  · cases hc with
    | rebased => exact ⟨_, _, _, hi, hnone⟩
    | _ => exact absurd rfl hrb

/-- Settles O39: every completion but a jump's keeps `ip`, or retires at the advance by the width. -/
theorem onlyJumpsLeaveTheInstructionSequence : Obligations.OnlyJumpsLeaveTheInstructionSequence := by
  intro s t i h hst hi hjt hjf
  obtain ⟨hdone, -⟩ | ⟨-, e, rfl⟩ | ⟨-, -, j, hj, hc⟩ := step_completes h
  · exact absurd hdone hst
  · exact .inl rfl
  · obtain rfl := Except.ok.inj (hi.symm.trans hj)
    cases hc with
    | stored hop _ _ hn =>
      refine .inr ⟨fun hhalt => ?_, rfl, hn⟩
      simp [hhalt] at hop
    | consumed _ hn => exact .inr ⟨nofun, rfl, hn⟩
    | suspended => exact .inl rfl
    | emitted hn => exact .inr ⟨nofun, rfl, hn⟩
    | jumped hjump => exact (hjump.elim hjt hjf).elim
    | rebased hn => exact .inr ⟨nofun, rfl, hn⟩
    | halted => exact .inl rfl

/-- Settles O40: of all completions only IN's takes an input, the head, and only OUT's adds an output, at the tail. -/
theorem queuesAreFirstInFirstOut : Obligations.QueuesAreFirstInFirstOut := by
  intro s t h
  obtain ⟨-, rfl⟩ | ⟨-, e, rfl⟩ | ⟨-, -, i, hi, hc⟩ := step_completes h
  · exact ⟨.inl rfl, .inl rfl⟩
  · exact ⟨.inl rfl, .inl rfl⟩
  · cases hc with
    | consumed _ _ hq => exact ⟨.inr ⟨_, _, _, _, hq, hi⟩, .inl rfl⟩
    | emitted => exact ⟨.inl rfl, .inr ⟨_, _, _, _, rfl, hi⟩⟩
    | _ => exact ⟨.inl rfl, .inl rfl⟩

/-- The status a completed instruction records (40_controller.md R81, decision D11). -/
theorem Completes.status_eq {s t : State} {i : Instr} (h : Completes s i t) :
    t.status = (if i.opcode = .halt then .terminated
      else if i.opcode = .inp ∧ s.inQ = [] then .waitingForInput else .running) := by
  cases h with
  | stored hi =>
    simp only [List.mem_cons, List.not_mem_nil, or_false] at hi
    obtain hi | hi | hi | hi := hi <;> simp [hi]
  | consumed _ _ hq => simp [Instr.opcode, hq]
  | suspended _ _ hq => simp [Instr.opcode, hq]
  | emitted => rfl
  | jumped hi => obtain hi | hi := hi <;> simp [hi]
  | rebased => rfl
  | halted => rfl

theorem Completes.status_ne_initial {s t : State} {i : Instr} (h : Completes s i t) : t.status ≠ .initial := by
  rw [h.status_eq]
  split
  · decide
  · split <;> decide

/-- Settles O41: the three ways of a step, and the status each completion records. -/
theorem statusFollowsTheTransitionTable : Obligations.StatusFollowsTheTransitionTable := by
  intro s t h
  obtain ⟨hdone, rfl⟩ | ⟨hst, e, rfl⟩ | ⟨hst, hnone, i, hi, hc⟩ := step_completes h
  · refine ⟨fun hf => absurd (step_next h).1 hf, fun _ => rfl, fun _ hst => absurd hdone hst, fun _ => ?_⟩
    rw [hdone]
    decide
  · exact ⟨fun _ => ⟨rfl, hst⟩, fun hdone => absurd hdone hst, nofun, nofun⟩
  · exact ⟨fun hf => absurd hnone hf, fun hdone => absurd hdone hst, fun _ _ => ⟨i, hi, hc.status_eq⟩,
      fun _ => hc.status_ne_initial⟩

/-- A completed store wrote the instruction's value to its address and advanced by its width. -/
theorem Completes.store {s t : State} {i : Instr} {d : Cell} (h : Completes s i t)
    (haddr : storeAddress i s = some (.ok d)) (hrun : t.status = .running) :
    ∃ v, storedValue i s = some v ∧ advance Config.overflowMode s i.opcode.width = .ok t.ip ∧
      t.mem = s.mem.write d.toNat v := by
  cases h with
  | stored _ hd hv hn =>
    cases haddr.symm.trans hd
    exact ⟨_, hv, hn, rfl⟩
  | consumed hd hn hq =>
    cases hd.symm.trans (Option.some.inj haddr)
    exact ⟨_, by rw [storedValue, hq]; rfl, hn, rfl⟩
  | suspended => cases hrun
  | jumped _ hnone => cases haddr.symm.trans hnone
  | _ => cases haddr

/-- The address an instruction stores to is never negative. -/
theorem storeAddress_nonneg {i : Instr} {s : State} {d : Cell} (h : storeAddress i s = some (.ok d)) :
    ¬ d.toInt < 0 := by
  cases i with
  | add | mul | lt | eq | inp => exact effectiveAddress_nonneg (Option.some.inj h)
  | out | jt | jf | arb | halt => cases h

/-- Settles O47: the next fetch reads the memory the store left. -/
theorem storesAreSeenByTheNextFetch : Obligations.StoresAreSeenByTheNextFetch := by
  intro i s t d _ h hnone hrun haddr
  obtain ⟨v, hv, hn, hmem⟩ := (completes_of_exec h hnone).store haddr hrun
  refine ⟨v, hv, hn, fun u hu => ⟨?_, fun hip hne => ?_⟩⟩
  · rintro rfl
    rw [fetch_of_nonneg (storeAddress_nonneg haddr), State.read_eq, hu, hmem, Memory.read_write_same]
  · have haddr_ne : u.ip.toNat ≠ d.toNat := fun heq => hne (BitVec.eq_of_toNat_eq heq)
    rw [fetch_of_nonneg (Int.not_lt.mpr hip), State.read_eq, hu, hmem, Memory.read_write_other _ _ haddr_ne]

/-! ## A placed word (log entry 6) -/

theorem decode_of_decodeTableWord {nbits w : Nat} {i : Instr} (h : decodeTableWord nbits w = some i) :
    decode (tableCell nbits w 0) = .ok i := by
  unfold decodeTableWord at h
  split at h
  next j hj => rw [hj, Option.some.inj h]
  next => cases h

/-- The first cell of a placed word is at its address. -/
theorem Memory.read_placeTableWord (m : Memory) {a : Nat} (nbits w : Nat) (ha : a < 2 ^ 63) :
    (m.placeTableWord a nbits w).read a = tableCell nbits w 0 :=
  Memory.read_load_inside (k := 0) _ (by simp) ha

theorem State.fetchReady_ip_nonneg (s : State) : ¬ s.fetchReady.ip.toInt < 0 := by
  rw [State.fetchReady_ip]
  split
  · decide
  · assumption

theorem State.withFetchWord_isLive (s : State) (nbits w : Nat) : (s.withFetchWord nbits w).isLive := by
  refine ⟨rfl, ?_⟩
  show s.fetchReady.status ≠ .terminated
  rw [State.fetchReady_status]
  split
  · decide
  · assumption

/-- Settles O43: the state fetches at an address, and the first placed cell is there. -/
theorem placedWordIsRunNext : Obligations.PlacedWordIsRunNext := by
  intro s nbits w i h
  have hip := s.fetchReady_ip_nonneg
  have hread : (s.withFetchWord nbits w).mem.read (s.withFetchWord nbits w).ip.toNat = tableCell nbits w 0 :=
    Memory.read_placeTableWord s.mem nbits w (toNat_lt_of_nonneg hip)
  exact stepRunsTheDecodedInstruction _ i (s.withFetchWord_isLive nbits w) (Int.not_lt.mp hip)
    (hread ▸ decode_of_decodeTableWord h)

end Sys2Proof.Machine
end

section
/-!
The host's calls (40_controller.md section 1) and several machines side by side (10_state.md R18).
-/
namespace Sys2Proof.Machine

/-! ## Queue calls -/

/-- A code point survives the trip through a cell: it is a 32-bit number (decision D21). -/
theorem toInt_ofInt_codePoint (c : Char) : (Cell.ofInt c.toNat).toInt = c.toNat := by
  have hlt : c.toNat < 2 ^ 32 := c.val.toNat_lt
  exact toInt_ofInt ((inInt64_iff _).mpr (by omega))

/-- Settles O51: pushing the code points in order appends them all. -/
theorem pushTextAppendsCodePoints : Obligations.PushTextAppendsCodePoints := by
  intro s text
  refine ⟨text.map fun c : Char => Cell.ofInt c.toNat, s.pushInputs_eq _, ?_⟩
  rw [List.map_map]
  exact List.map_congr_left fun c _ => toInt_ofInt_codePoint c

theorem State.popOutput_nil {s : State} (h : s.outQ = []) : s.popOutput = (none, s) := by
  simp [State.popOutput, h]

theorem State.popOutput_cons {s : State} {v : Cell} {rest : List Cell} (h : s.outQ = v :: rest) :
    s.popOutput = (some v, { s with outQ := rest }) := by
  simp [State.popOutput, h]

/-- Settles O52: the head is popped or there is none, the queue is drained, and the status is read. -/
theorem outputCallsReadTheOutputQueue : Obligations.OutputCallsReadTheOutputQueue := by
  refine fun s => ⟨fun h => ?_, fun v rest h => ?_, rfl, rfl⟩
  · rw [hostCall, State.popOutput_nil h]
  · rw [hostCall, State.popOutput_cons h]

/-- The value popped is the head of the output queue, if there is one (decision D22). -/
theorem State.popOutput_fst (s : State) : s.popOutput.1 = s.outQ.head? := by
  cases h : s.outQ with
  | nil => rw [State.popOutput_nil h]; rfl
  | cons v rest => rw [State.popOutput_cons h]; rfl

/-- Popping changes the output queue only. -/
theorem State.popOutput_snd (s : State) : s.popOutput.2 = { s with outQ := s.outQ.tail } := by
  cases h : s.outQ with
  | nil =>
    rw [State.popOutput_nil h]
    show s = { s with outQ := [] }
    rw [← h]
  | cons v rest => rw [State.popOutput_cons h]; rfl

/-- Settles O53, call by call: each changes a queue at most, and replies with the status or the output queue. -/
theorem hostCallsCannotReachTheMachine : Obligations.HostCallsCannotReachTheMachine := by
  intro c s hc
  cases c with
  | step => exact absurd rfl hc
  | pushInput v => exact ⟨⟨rfl, rfl, rfl, rfl, rfl⟩, fun _ _ _ => rfl⟩
  | pushTextInput text =>
    rw [hostCall, State.pushTextInput, State.pushInputs_eq]
    exact ⟨⟨rfl, rfl, rfl, rfl, rfl⟩, fun _ _ _ => rfl⟩
  | popOutput =>
    rw [hostCall, State.popOutput_fst, State.popOutput_snd]
    refine ⟨⟨rfl, rfl, rfl, rfl, rfl⟩, fun s' _ hout => ?_⟩
    rw [hostCall, State.popOutput_fst, hout]
  | drainOutput => exact ⟨⟨rfl, rfl, rfl, rfl, rfl⟩, fun _ _ hout => congrArg HostReply.values hout⟩
  | getState => exact ⟨⟨rfl, rfl, rfl, rfl, rfl⟩, fun _ hst _ => congrArg HostReply.status hst⟩

/-! ## Several machines -/

/-- A call on a number modifies what that number names, and replies from it. -/
theorem callOn_eq (b : Bench) (n : Nat) (c : HostCall) :
    callOn b n c = (b[n]?.map fun s => (hostCall c s).1, b.modify n fun s => (hostCall c s).2) := by
  rw [List.modify_eq_set_getElem?, callOn]
  cases b[n]? <;> rfl

/-- Feeding empties the source's output queue and then pushes its values into the target. -/
theorem feed_eq {b : Bench} {i : Nat} {s : State} (h : b[i]? = some s) (j : Nat) :
    feed b i j = (b.modify i fun t => { t with outQ := [] }).modify j fun t => { t with inQ := t.inQ ++ s.outQ } := by
  have hdrain : b.modify i (fun t => { t with outQ := [] }) = b.set i s.drainOutput.2 := by
    rw [List.modify_eq_set_getElem?, h]
    rfl
  rw [hdrain, List.modify_eq_set_getElem?, feed, h]
  cases hj : (b.set i s.drainOutput.2)[j]? with
  | none => simp [hj]
  | some t => simp [hj, State.pushInputs_eq, State.drainOutput_fst]

theorem feed_of_none {b : Bench} {i : Nat} (h : b[i]? = none) (j : Nat) : feed b i j = b := by
  rw [feed, h]

/-- The state at number `k` after the source `s` at number `i` was fed to number `j`. -/
def afterFeed (i j k : Nat) (s t : State) : State :=
  { t with
    inQ := if j = k then t.inQ ++ s.outQ else t.inQ
    outQ := if i = k then [] else t.outQ }

theorem getElem?_feed {b : Bench} {i : Nat} {s : State} (h : b[i]? = some s) (j k : Nat) :
    (feed b i j)[k]? = b[k]?.map (afterFeed i j k s) := by
  rw [feed_eq h, List.getElem?_modify, List.getElem?_modify]
  cases b[k]? with
  | none => rfl
  | some t =>
    refine congrArg some ?_
    dsimp only [afterFeed]
    split <;> split <;> rfl

/-- Settles O54: a call modifies one place of the list, and a feed two. -/
theorem instancesShareNothing : Obligations.InstancesShareNothing := by
  refine ⟨?_, ?_, ?_, ?_, ?_, ?_, ?_⟩
  · intro b n c s hs
    rw [callOn, hs]
  · intro b n j c hj
    rw [callOn_eq, List.getElem?_modify_ne _ _ (Ne.symm hj)]
  · intro b b' n c hb
    simp [callOn_eq, hb]
  · intro b i j s t hij hs ht
    rw [getElem?_feed hs, getElem?_feed hs, hs, ht]
    simp [afterFeed, hij, Ne.symm hij]
  · intro b i s hs
    rw [getElem?_feed hs, hs]
    simp [afterFeed]
  · intro b i j k hi hj
    cases hs : b[i]? with
    | none => rw [feed_of_none hs]
    | some s =>
      rw [getElem?_feed hs]
      cases b[k]? <;> simp [afterFeed, Ne.symm hi, Ne.symm hj]
  · intro b i j k t ht
    cases hs : b[i]? with
    | none =>
      rw [feed_of_none hs]
      exact ⟨t, ht, rfl, rfl, rfl, rfl, rfl, fun _ => rfl, fun _ => rfl⟩
    | some s =>
      rw [getElem?_feed hs, ht]
      exact ⟨_, rfl, rfl, rfl, rfl, rfl, rfl, fun hi => if_neg (Ne.symm hi), fun hj => if_neg (Ne.symm hj)⟩

end Sys2Proof.Machine
end

section
/-!
Replies and runs (40_controller.md sections 2 to 4): one step of a run, what a run can give, that a larger number of
steps changes no result, and that input pushed early or late gives the same.
-/
namespace Sys2Proof.Machine

/-! ## The reply of a step -/

theorem stepReply_of_completed {s t : State} (h : step s = .next t) (ht : t.fault = none) :
    stepReply s = (.status t.status, t) := by
  simp [stepReply, h, ht]

theorem stepReply_of_raised {s t : State} {e : VmError} (h : step s = .next t) (ht : t.fault = some e) :
    stepReply s = (.error e, t) := by
  simp [stepReply, h, ht]

theorem step_of_marked {s : State} {e : VmError} (h : s.fault = some e) : step s = .refused (.faultMarkSet e) := by
  simp [step, h]

theorem stepReply_of_marked {s : State} {e : VmError} (h : s.fault = some e) : stepReply s = (.refused, s) := by
  simp [stepReply, step_of_marked h]

/-! ## The first step of a run -/

theorem runFor_succ_of_running {s t : State} (n : Nat) (h : step s = .next t) (ht : t.fault = none)
    (hst : t.status = .running) : runFor (n + 1) s = runFor n t := by
  rw [runFor, stepReply_of_completed h ht, hst]

theorem runFor_succ_of_not_running {s t : State} (n : Nat) (h : step s = .next t) (ht : t.fault = none)
    (hst : t.status ≠ .running) : runFor (n + 1) s = .returned t.status t := by
  rw [runFor, stepReply_of_completed h ht]
  cases ht' : t.status with
  | running => exact absurd ht' hst
  | _ => rfl

theorem runFor_succ_of_raised {s t : State} {e : VmError} (n : Nat) (h : step s = .next t) (ht : t.fault = some e) :
    runFor (n + 1) s = .failed e t := by
  rw [runFor, stepReply_of_raised h ht]

theorem runFor_succ_of_marked {s : State} {e : VmError} (n : Nat) (h : s.fault = some e) :
    runFor (n + 1) s = .refused := by
  rw [runFor, stepReply_of_marked h]

/-- What the first step of a run can be. -/
inductive FirstStep (s : State) : Prop where
  /-- it is refused -/
  | marked (e : VmError) (h : s.fault = some e)
  /-- it returns Running -/
  | running (t : State) (h : step s = .next t) (ht : t.fault = none) (hst : t.status = .running)
  /-- it returns another status -/
  | stopped (t : State) (h : step s = .next t) (ht : t.fault = none) (hst : t.status ≠ .running)
  /-- it raises -/
  | raised (t : State) (e : VmError) (h : step s = .next t) (ht : t.fault = some e)

theorem firstStep (s : State) : FirstStep s := by
  cases hs : s.fault with
  | some e => exact .marked e hs
  | none =>
    obtain ⟨t, h⟩ := everyStepWithoutFaultMarkAnswers.2 s hs
    cases ht : t.fault with
    | some e => exact .raised t e h ht
    | none =>
      by_cases hst : t.status = .running
      · exact .running t h ht hst
      · exact .stopped t h ht hst

/-- Settles O32: a step that sets the mark changes nothing else, and the reply and the run read the mark. -/
theorem raisingStepChangesOnlyTheFaultMark : Obligations.RaisingStepChangesOnlyTheFaultMark :=
  fun _ _ _ h ht => ⟨(step_of_fault h ht).1, stepReply_of_raised h ht, fun n => runFor_succ_of_raised n h ht⟩

/-- Settles O33: the mark is looked at first. -/
theorem faultedInstanceIsRefused : Obligations.FaultedInstanceIsRefused :=
  fun _ _ h => ⟨step_of_marked h, stepReply_of_marked h, fun n => runFor_succ_of_marked n h⟩

/-- Settles O44: the step gives back the same state, whose status is not Running. -/
theorem terminatedIsAbsorbing : Obligations.TerminatedIsAbsorbing := by
  rintro s ⟨hf, hst⟩
  have hstep := step_of_terminated hf hst
  have hreply := stepReply_of_completed hstep hf
  have hrun (n : Nat) := runFor_succ_of_not_running n hstep hf (by simp [hst])
  rw [hst] at hreply hrun
  exact ⟨hstep, hreply, hrun⟩

/-! ## An IN that is about to read -/

/-- The next step of `s` executes an IN whose target and advance are resolved, so only the queue decides what it
does. -/
structure ReadsInput (s : State) (m1 m2 m3 : Mode) (d nip : Cell) : Prop where
  live : s.isLive
  fetched : fetchDecode s = .ok (.inp m1 m2 m3)
  legal : m1 ≠ .immediate
  target : writeTarget Config.overflowMode s 1 m1 = .ok d
  next : advance Config.overflowMode s 2 = .ok nip

section
variable {s : State} {m1 m2 m3 : Mode} {d nip : Cell} (h : ReadsInput s m1 m2 m3 d nip)
include h

theorem ReadsInput.step_nil (hq : s.inQ = []) : step s = .next { s with status := .waitingForInput } := by
  rw [step_of_fetchDecode_ok h.live h.fetched]
  exact inSuspendsOnAnEmptyQueue m1 m2 m3 s d nip h.legal h.target h.next hq

theorem ReadsInput.step_cons {v : Cell} {rest : List Cell} (hq : s.inQ = v :: rest) :
    step s = .next ((({ s with inQ := rest } : State).write d v).retire nip) := by
  rw [step_of_fetchDecode_ok h.live h.fetched]
  refine (inUnder_of_resolved h.legal h.target h.next).trans ?_
  rw [hq]

/-- Suspending does not change what the next step is about to read. -/
theorem ReadsInput.suspended : ReadsInput { s with status := .waitingForInput } m1 m2 m3 d nip :=
  ⟨⟨h.live.1, nofun⟩, h.fetched, h.legal, h.target, h.next⟩

theorem ReadsInput.pushInput (v : Cell) : ReadsInput (s.pushInput v) m1 m2 m3 d nip :=
  ⟨h.live, h.fetched, h.legal, h.target, h.next⟩

end

/-- A decoded IN has no immediate target (30_encoding.md R56). -/
theorem ne_immediate_of_fetchDecode_inp {s : State} {m1 m2 m3 : Mode} (h : fetchDecode s = .ok (.inp m1 m2 m3)) :
    m1 ≠ .immediate := by
  rintro rfl
  exact absurd (encode_of_decode (fetchDecode_ok h).2).1 (by simp [Instr.wellFormed, Mode.namesTarget])

/-- A step suspends only at an IN that finds the input queue empty (40_controller.md R81). -/
theorem readsInput_of_suspended {s t : State} (h : step s = .next t) (ht : t.isSuspended) :
    s.inQ = [] ∧ t = { s with status := .waitingForInput } ∧ ∃ m1 m2 m3 d nip, ReadsInput s m1 m2 m3 d nip := by
  obtain ⟨hfault, hwait⟩ := ht
  obtain ⟨hdone, rfl⟩ | ⟨-, e, rfl⟩ | ⟨hst, -, i, hi, hc⟩ := step_completes h
  · cases hdone.symm.trans hwait
  · cases hfault
  · cases hc with
    | suspended hd hn hq =>
      exact ⟨hq, rfl, _, _, _, _, _, ⟨(step_next h).1, hst⟩, hi, ne_immediate_of_fetchDecode_inp hi, hd, hn⟩
    | _ => cases hwait

/-- A starved machine that is stepped again is as it was (40_controller.md R86). -/
theorem step_of_starved {s t : State} (h : step s = .next t) (ht : t.isSuspended) : step t = .next t := by
  obtain ⟨hq, rfl, m1, m2, m3, d, nip, hreads⟩ := readsInput_of_suspended h ht
  exact hreads.suspended.step_nil hq

/-! ## What a run can give -/

/-- A result that is not cut off. -/
def RunResult.Settled (r : RunResult) : Prop := ∀ u, r ≠ .unfinished u

/-- A run goes on from where it was cut off. -/
theorem runFor_add {s u : State} {n : Nat} (m : Nat) (h : runFor n s = .unfinished u) :
    runFor (n + m) s = runFor m u := by
  induction n generalizing s with
  | zero =>
    obtain rfl := RunResult.unfinished.inj h
    rw [Nat.zero_add]
  | succ n ih =>
    rw [Nat.add_right_comm]
    cases firstStep s with
    | marked e he => rw [runFor_succ_of_marked n he] at h; cases h
    | raised t e hstep ht => rw [runFor_succ_of_raised n hstep ht] at h; cases h
    | stopped t hstep ht hst => rw [runFor_succ_of_not_running n hstep ht hst] at h; cases h
    | running t hstep ht hst =>
      rw [runFor_succ_of_running n hstep ht hst] at h
      rw [runFor_succ_of_running (n + m) hstep ht hst, ih h]

/-- More steps do not change a result (log entry 11). -/
theorem runFor_add_of_settled {s : State} {n : Nat} (m : Nat) (h : (runFor n s).Settled) :
    runFor (n + m) s = runFor n s := by
  induction n generalizing s with
  | zero => exact absurd rfl (h s)
  | succ n ih =>
    rw [Nat.add_right_comm]
    cases firstStep s with
    | marked e he => rw [runFor_succ_of_marked _ he, runFor_succ_of_marked _ he]
    | raised t e hstep ht => rw [runFor_succ_of_raised _ hstep ht, runFor_succ_of_raised _ hstep ht]
    | stopped t hstep ht hst =>
      rw [runFor_succ_of_not_running _ hstep ht hst, runFor_succ_of_not_running _ hstep ht hst]
    | running t hstep ht hst =>
      rw [runFor_succ_of_running n hstep ht hst] at h
      rw [runFor_succ_of_running _ hstep ht hst, runFor_succ_of_running _ hstep ht hst, ih h]

/-- A run has one result (40_controller.md R82). -/
theorem runFor_unique {s : State} {n m : Nat} (hn : (runFor n s).Settled) (hm : (runFor m s).Settled) :
    runFor n s = runFor m s := by
  rw [← runFor_add_of_settled m hn, ← runFor_add_of_settled n hm, Nat.add_comm]

/-- A run is refused only when it begins with a fault mark (60_exceptions.md R103). -/
theorem runFor_ne_refused {s : State} (h : s.fault = none) (n : Nat) : runFor n s ≠ .refused := by
  induction n generalizing s with
  | zero => exact nofun
  | succ n ih =>
    cases firstStep s with
    | marked e he => cases h.symm.trans he
    | raised t e hstep ht => rw [runFor_succ_of_raised n hstep ht]; exact nofun
    | stopped t hstep ht hst => rw [runFor_succ_of_not_running n hstep ht hst]; exact nofun
    | running t hstep ht hst => rw [runFor_succ_of_running n hstep ht hst]; exact ih ht

/-- A run returns the status it leaves, which is WaitingForInput or Terminated. -/
theorem returned_status {s t : State} {st : Status} {n : Nat} (h : runFor n s = .returned st t) :
    (st = .waitingForInput ∨ st = .terminated) ∧ t.status = st ∧ t.fault = none := by
  induction n generalizing s with
  | zero => cases h
  | succ n ih =>
    cases firstStep s with
    | marked e he => rw [runFor_succ_of_marked n he] at h; cases h
    | raised u e hstep hu => rw [runFor_succ_of_raised n hstep hu] at h; cases h
    | running u hstep hu hst =>
      rw [runFor_succ_of_running n hstep hu hst] at h
      exact ih h
    | stopped u hstep hu hst =>
      rw [runFor_succ_of_not_running n hstep hu hst] at h
      obtain ⟨rfl, rfl⟩ := RunResult.returned.inj h
      have hinitial := (statusFollowsTheTransitionTable s u hstep).2.2.2 hu
      refine ⟨?_, rfl, hu⟩
      cases hus : u.status with
      | initial => exact absurd hus hinitial
      | running => exact absurd hus hst
      | waitingForInput => exact .inl rfl
      | terminated => exact .inr rfl

/-- A run fails at a step that raises, the steps before it done. -/
theorem failed_after_unfinished {s t : State} {e : VmError} {n : Nat} (h : runFor n s = .failed e t) :
    ∃ k u, runFor k s = .unfinished u ∧ step u = .next t ∧ t = { u with fault := some e } := by
  induction n generalizing s with
  | zero => cases h
  | succ n ih =>
    cases firstStep s with
    | marked e he => rw [runFor_succ_of_marked n he] at h; cases h
    | stopped u hstep hu hst => rw [runFor_succ_of_not_running n hstep hu hst] at h; cases h
    | raised u e hstep hu =>
      rw [runFor_succ_of_raised n hstep hu] at h
      obtain ⟨rfl, rfl⟩ := RunResult.failed.inj h
      exact ⟨0, s, rfl, hstep, (step_of_fault hstep hu).1⟩
    | running u hstep hu hst =>
      rw [runFor_succ_of_running n hstep hu hst] at h
      obtain ⟨k, w, hk, hw, ht⟩ := ih h
      exact ⟨k + 1, w, by rw [runFor_succ_of_running k hstep hu hst, hk], hw, ht⟩

/-- A run none of whose steps stops is cut off at every number of steps. -/
theorem hangs_of_forall_running {s : State}
    (h : ∀ n u, runFor n s = .unfinished u → ∃ t, step u = .next t ∧ t.fault = none ∧ t.status = .running) :
    Hangs s := by
  intro n
  induction n with
  | zero => exact ⟨s, rfl⟩
  | succ n ih =>
    obtain ⟨u, hu⟩ := ih
    obtain ⟨t, hstep, ht, hst⟩ := h n u hu
    exact ⟨t, by rw [runFor_add 1 hu, runFor_succ_of_running 0 hstep ht hst, runFor]⟩

/-- Settles O55: the equations of a run's first step, and the lemmas on what a run can give. -/
theorem runRepeatsStepUntilNotRunning : Obligations.RunRepeatsStepUntilNotRunning := by
  refine ⟨fun _ => rfl, fun s t n => runFor_succ_of_running n, fun s t n => runFor_succ_of_not_running n,
    fun s t e n => runFor_succ_of_raised n, ?_, ?_, fun s n m => runFor_add_of_settled m, ?_, ?_,
    fun s => hangs_of_forall_running⟩
  · rintro s t st ⟨n, hn⟩
    exact returned_status hn
  · rintro s t e ⟨n, hn⟩
    exact failed_after_unfinished hn
  · exact fun s hs => (terminatedIsAbsorbing s hs).2.2 0
  · intro s t hstep ht
    have hrun := runFor_succ_of_not_running 0 (step_of_starved hstep ht) ht.1 (by simp [ht.2])
    rwa [ht.2] at hrun

/-- Without a fault mark a run gives a status, an error, or nothing ever. -/
theorem returns_or_fails_or_hangs {s : State} (hs : s.fault = none) :
    (∃ st t, Returns s st t) ∨ (∃ e t, Fails s e t) ∨ Hangs s := by
  by_cases hhang : Hangs s
  · exact .inr (.inr hhang)
  · obtain ⟨n, hn⟩ := not_forall.mp hhang
    cases hr : runFor n s with
    | returned st t => exact .inl ⟨st, t, n, hr⟩
    | failed e t => exact .inr (.inl ⟨e, t, n, hr⟩)
    | refused => exact absurd hr (runFor_ne_refused hs n)
    | unfinished t => exact absurd ⟨t, hr⟩ hn

/-- Two settled results of one run are the same. -/
theorem settled_unique {s : State} {r r' : RunResult} {n m : Nat} (hn : runFor n s = r) (hm : runFor m s = r')
    (hr : r.Settled) (hr' : r'.Settled) : r = r' := by
  subst hn hm
  exact runFor_unique hr hr'

theorem settled_returned (st : Status) (t : State) : (RunResult.returned st t).Settled := fun _ => nofun

theorem settled_failed (e : VmError) (t : State) : (RunResult.failed e t).Settled := fun _ => nofun

theorem not_settled_of_hangs {s : State} {r : RunResult} {n : Nat} (h : Hangs s) (hn : runFor n s = r) :
    ¬ r.Settled := by
  obtain ⟨u, hu⟩ := h n
  exact fun hr => hr u (hn.symm.trans hu)

/-- Settles O56: one of the three happens, and the uniqueness of a run's result excludes the others. -/
theorem runReturnsOrFailsOrHangs : Obligations.RunReturnsOrFailsOrHangs := by
  intro s hs
  refine ⟨returns_or_fails_or_hangs hs, ?_, ?_, ?_, ?_, ?_⟩
  · rintro st t st' t' ⟨n, hn⟩ ⟨m, hm⟩
    exact RunResult.returned.inj (settled_unique hn hm (settled_returned st t) (settled_returned st' t'))
  · rintro e t e' t' ⟨n, hn⟩ ⟨m, hm⟩
    exact RunResult.failed.inj (settled_unique hn hm (settled_failed e t) (settled_failed e' t'))
  · rintro st t e t' ⟨n, hn⟩ ⟨m, hm⟩
    cases settled_unique hn hm (settled_returned st t) (settled_failed e t')
  · intro hhang st t e t'
    constructor
    · rintro ⟨n, hn⟩
      exact not_settled_of_hangs hhang hn (settled_returned st t)
    · rintro ⟨n, hn⟩
      exact not_settled_of_hangs hhang hn (settled_failed e t')
  · intro hsafe
    obtain hreturns | ⟨e, t, hfails⟩ | hhang := returns_or_fails_or_hangs hs
    · exact .inl hreturns
    · exact absurd hfails (hsafe e t)
    · exact .inr hhang

/-! ## Early input -/

/-- A line that can raise and depends on no input commutes with a pushed value as soon as what follows it does. -/
theorem orRaise_pushInput {α : Type} {s t : State} {r : Except VmError α} {v : Cell}
    {go go' : α → Host.Outcome State Fault Refusal} (h : orRaise s r go = .next t)
    (hgo : ∀ x, go x = .next t → go' x = .next (t.pushInput v)) :
    orRaise (s.pushInput v) r go' = .next (t.pushInput v) := by
  cases r with
  | ok x => exact hgo x h
  | error e =>
    obtain rfl := Host.Outcome.next.inj h
    rfl

/-- The last line of an instruction commutes with a pushed value when its effect does. -/
theorem next_pushInput {s t u : State} {v : Cell}
    (h : (.next s : Host.Outcome State Fault Refusal) = .next t) (hu : u = s.pushInput v) :
    (.next u : Host.Outcome State Fault Refusal) = .next (t.pushInput v) := by
  obtain rfl := Host.Outcome.next.inj h
  rw [hu]

theorem threeOperand_pushInput {ov : OverflowMode} {result : Cell → Cell → Except VmError Cell} {m1 m2 m3 : Mode}
    {s t : State} {v : Cell} (h : threeOperand ov result m1 m2 m3 s = .next t) :
    threeOperand ov result m1 m2 m3 (s.pushInput v) = .next (t.pushInput v) :=
  orRaise_pushInput h fun _ h => orRaise_pushInput h fun _ h => orRaise_pushInput h fun _ h =>
    orRaise_pushInput h fun _ h => orRaise_pushInput h fun _ h => orRaise_pushInput h fun _ h => next_pushInput h rfl

theorem jumpWhen_pushInput {ov : OverflowMode} {taken : Cell → Bool} {m1 m2 : Mode} {s t : State} {v : Cell}
    (h : jumpWhen ov taken m1 m2 s = .next t) : jumpWhen ov taken m1 m2 (s.pushInput v) = .next (t.pushInput v) :=
  orRaise_pushInput h fun _ h => orRaise_pushInput h fun _ h => orRaise_pushInput h fun _ h => next_pushInput h rfl

theorem outUnder_pushInput {ov : OverflowMode} {m1 : Mode} {s t : State} {v : Cell} (h : outUnder ov m1 s = .next t) :
    outUnder ov m1 (s.pushInput v) = .next (t.pushInput v) :=
  orRaise_pushInput h fun _ h => orRaise_pushInput h fun _ h => next_pushInput h rfl

theorem arbUnder_pushInput {ov : OverflowMode} {m1 : Mode} {s t : State} {v : Cell} (h : arbUnder ov m1 s = .next t) :
    arbUnder ov m1 (s.pushInput v) = .next (t.pushInput v) :=
  orRaise_pushInput h fun _ h => orRaise_pushInput h fun _ h => orRaise_pushInput h fun _ h => next_pushInput h rfl

/-- IN takes the head it would have taken, unless the queue is empty: then it suspends. -/
theorem inUnder_pushInput {ov : OverflowMode} {m1 : Mode} {s t : State} {v : Cell} (hs : s.fault = none)
    (h : inUnder ov m1 s = .next t) (ht : ¬ t.isSuspended) : inUnder ov m1 (s.pushInput v) = .next (t.pushInput v) := by
  refine orRaise_pushInput h fun _ h => orRaise_pushInput h fun d h => orRaise_pushInput h fun nip h => ?_
  rw [State.pushInput_inQ]
  cases hq : s.inQ with
  | nil =>
    rw [hq] at h
    obtain rfl := Host.Outcome.next.inj h
    exact absurd ⟨hs, rfl⟩ ht
  | cons w rest =>
    rw [hq] at h
    exact next_pushInput h rfl

theorem exec_pushInput {i : Instr} {s t : State} {v : Cell} (hs : s.fault = none) (h : exec i s = .next t)
    (ht : ¬ t.isSuspended) : exec i (s.pushInput v) = .next (t.pushInput v) := by
  cases i with
  | add => exact threeOperand_pushInput h
  | mul => exact threeOperand_pushInput h
  | lt => exact threeOperand_pushInput h
  | eq => exact threeOperand_pushInput h
  | jt => exact jumpWhen_pushInput h
  | jf => exact jumpWhen_pushInput h
  | inp => exact inUnder_pushInput hs h ht
  | out => exact outUnder_pushInput h
  | arb => exact arbUnder_pushInput h
  | halt => exact next_pushInput h rfl

/-- Settles O57: fetch and decode see no queue, and every instruction but a suspending IN commutes with the push. -/
theorem earlyInputCommutesWithSteps : Obligations.EarlyInputCommutesWithSteps := by
  intro s t v h ht
  obtain ⟨hs, ⟨hst, rfl⟩ | ⟨hst, e, he, rfl⟩ | ⟨hst, i, hi, hexec⟩⟩ := step_next h
  · exact step_of_terminated hs hst
  · exact step_of_fetchDecode_error (s := s.pushInput v) ⟨hs, hst⟩ he
  · rw [step_of_fetchDecode_ok (s := s.pushInput v) ⟨hs, hst⟩ hi]
    exact exec_pushInput hs hexec ht

/-! ## Suspend and resume -/

/-- The runs of two machines give the same. -/
structure RunsAlike (s s' : State) : Prop where
  returns : ∀ st u, Returns s st u ↔ Returns s' st u
  fails : ∀ e u, Fails s e u ↔ Fails s' e u
  hangs : Hangs s ↔ Hangs s'

theorem RunsAlike.symm {s s' : State} (h : RunsAlike s s') : RunsAlike s' s :=
  ⟨fun st u => (h.returns st u).symm, fun e u => (h.fails e u).symm, h.hangs.symm⟩

theorem RunsAlike.trans {s s' s'' : State} (h : RunsAlike s s') (h' : RunsAlike s' s'') : RunsAlike s s'' :=
  ⟨fun st u => (h.returns st u).trans (h'.returns st u), fun e u => (h.fails e u).trans (h'.fails e u),
    h.hangs.trans h'.hangs⟩

/-- A result is reached in some number of steps just when it is reached in some positive number. -/
theorem exists_runFor_iff_succ {s : State} {r : RunResult} (hr : r.Settled) :
    (∃ n, runFor n s = r) ↔ ∃ n, runFor (n + 1) s = r := by
  constructor
  · rintro ⟨n, rfl⟩
    exact ⟨n, runFor_add_of_settled 1 hr⟩
  · rintro ⟨n, hn⟩
    exact ⟨n + 1, hn⟩

theorem hangs_iff_succ {s : State} : Hangs s ↔ ∀ n, ∃ t, runFor (n + 1) s = .unfinished t := by
  constructor
  · exact fun h n => h (n + 1)
  · intro h n
    cases n with
    | zero => exact ⟨s, rfl⟩
    | succ n => exact h n

/-- A running step leaves a machine whose run goes on alike (40_controller.md R82). -/
theorem runsAlike_of_running {s t : State} (h : step s = .next t) (ht : t.fault = none) (hst : t.status = .running) :
    RunsAlike s t := by
  have hrun (n : Nat) : runFor (n + 1) s = runFor n t := runFor_succ_of_running n h ht hst
  refine ⟨fun st u => ?_, fun e u => ?_, ?_⟩
  · rw [Returns, exists_runFor_iff_succ (settled_returned st u)]
    simp only [hrun, Returns]
  · rw [Fails, exists_runFor_iff_succ (settled_failed e u)]
    simp only [hrun, Fails]
  · rw [hangs_iff_succ]
    simp only [hrun, Hangs]

/-- Two machines whose next step is the same, and may be a running one, run alike. -/
theorem runsAlike_of_step_eq {s s' t : State} (h : step s = .next t) (h' : step s' = .next t) (ht : t.fault = none)
    (hst : t.status = .running) : RunsAlike s s' :=
  (runsAlike_of_running h ht hst).trans (runsAlike_of_running h' ht hst).symm

/-- Where the step suspends, the value that is pushed afterwards is read as if it had been there. -/
theorem runsAlike_of_suspended {s t : State} (v : Cell) (h : step s = .next t) (ht : t.isSuspended) :
    RunsAlike (t.pushInput v) (s.pushInput v) := by
  obtain ⟨hq, rfl, m1, m2, m3, d, nip, hreads⟩ := readsInput_of_suspended h ht
  have hpushed : (s.pushInput v).inQ = [v] := by rw [State.pushInput_inQ, hq, List.nil_append]
  exact runsAlike_of_step_eq ((hreads.suspended.pushInput v).step_cons hpushed) ((hreads.pushInput v).step_cons hpushed)
    hreads.live.1 rfl

/-- Settles O58, by induction on the suspending run: its running steps commute with the push, and its last step finds
the queue empty. -/
theorem resumedRunEqualsRunWithEarlyInput : Obligations.ResumedRunEqualsRunWithEarlyInput := by
  rintro s t v ⟨n, hn⟩
  suffices halike : RunsAlike (t.pushInput v) (s.pushInput v) from ⟨halike.returns, halike.fails, halike.hangs⟩
  induction n generalizing s with
  | zero => cases hn
  | succ n ih =>
    cases firstStep s with
    | marked e he => rw [runFor_succ_of_marked n he] at hn; cases hn
    | raised u e hstep hu => rw [runFor_succ_of_raised n hstep hu] at hn; cases hn
    | stopped u hstep hu hst =>
      rw [runFor_succ_of_not_running n hstep hu hst] at hn
      obtain ⟨hwait, rfl⟩ := RunResult.returned.inj hn
      exact runsAlike_of_suspended v hstep ⟨hu, hwait⟩
    | running u hstep hu hst =>
      rw [runFor_succ_of_running n hstep hu hst] at hn
      have hpushed := earlyInputCommutesWithSteps s u v hstep (by simp [State.isSuspended, hst])
      exact (ih u hn).trans (runsAlike_of_running hpushed hu hst).symm

/-! ## The one-shot run -/

/-- Settles O59: the run starts from the new machine with all inputs pushed, and each of its ends is answered. -/
theorem oneShotRunGivesItsOutputs : Obligations.OneShotRunGivesItsOutputs := by
  rintro program inputs s rfl
  have hstart : (State.new program).pushInputs inputs = { State.new program with inQ := inputs } :=
    State.pushInputs_eq _ inputs
  refine ⟨?_, ?_, ?_, fun hhang n => ?_⟩
  · rintro t ⟨n, hn⟩
    exact ⟨n, by rw [runProgramWithInputs, hstart, hn]; rfl⟩
  · rintro t ⟨n, hn⟩
    exact ⟨n, by rw [runProgramWithInputs, hstart, hn]⟩
  · rintro e t ⟨n, hn⟩
    exact ⟨n, by rw [runProgramWithInputs, hstart, hn]⟩
  · obtain ⟨u, hu⟩ := hhang n
    rw [runProgramWithInputs, hstart, hu]

end Sys2Proof.Machine
end
